-- ==== Sys2Proof/Word.lean ====
section
/-! DEFINITION. The words of the block: 00_scope.md rule R11. -/

namespace Sys2Proof

/-- A bit, 0 or 1 (rule R11). -/
abbrev Bit := Bool

/-- A word is "an unsigned integer `v` with `0 <= v < 2^n`" (rule R11), so its type is `Nat`. The width `n` is a parameter
of the component that holds the word (rule R6): it is checked where a word enters the machine (`Instr.wf`, `whenTyped`)
and kept by the invariant `State.wf`. No operation of the block computes on words; the only access to their parts is by
bit. `Word.fits n v`: `v` is a word of width `n`. -/
def Word.fits (n : Nat) (v : Nat) : Bool := decide (v < 2 ^ n)

@[simp] theorem Word.fits_iff (n : Nat) (v : Nat) : Word.fits n v = true ↔ v < 2 ^ n := by
  simp [Word.fits]

end Sys2Proof
end

