-- ==== Sys2Proof/Config.lean ====
section
/-! DEFINITION. What is fixed when a component is constructed (rules R6 to R8, R21), the components this machine is
created with, and the one free value of the spec (rule R136). -/

namespace Sys2Proof

/-- The structure of one component, "fixed at construction" (rule R21): its kind and representation (rules R1, R8) and
its parameters. A RAM tree carries its fan-out schedule, root first (rule R123), whose sum is its address width `A`;
a FlatRam carries `W`, `A` and the width `AW` of its address port (rule R150). -/
inductive Shape where
  | delayCell
  | loadableBit
  | wordRegister (width : Nat)
  | flatRegister (width : Nat)
  | memoryNode (width : Nat) (sched : List Nat)
  | flatRam (width addressWidth portWidth : Nat)
deriving DecidableEq, Repr

namespace Shape

/-- `Wf` of rule R65, the width of the `in` operand: "1 for DelayCell and LoadableBit and `W` for the others". -/
def inWidth : Shape → Nat
  | delayCell => 1
  | loadableBit => 1
  | wordRegister w => w
  | flatRegister w => w
  | memoryNode w _ => w
  | flatRam w _ _ => w

/-- `AWf` of rule R65, the width of the `address` operand: "0 for DelayCell, LoadableBit and WordRegister (the field is
absent), `A` for a MemoryNode and `AW` for a FlatRam". -/
def addressFieldWidth : Shape → Nat
  | delayCell => 0
  | loadableBit => 0
  | wordRegister _ => 0
  | flatRegister _ => 0
  | memoryNode _ sched => sched.sum
  | flatRam _ _ aw => aw

/-- The number of bits of a command word: `4 + AWf + Wf` (rule R65). -/
def commandWidth (sh : Shape) : Nat := 4 + sh.addressFieldWidth + sh.inWidth

/-- The shape takes the `WR` operations; both representations do (rule R60, last paragraph). -/
def isRegister : Shape → Bool
  | wordRegister _ => true
  | flatRegister _ => true
  | delayCell => false
  | loadableBit => false
  | memoryNode _ _ => false
  | flatRam _ _ _ => false

/-- The shape takes the `RAM` operations. -/
def isMemoryNode : Shape → Bool
  | memoryNode _ _ => true
  | delayCell => false
  | loadableBit => false
  | wordRegister _ => false
  | flatRegister _ => false
  | flatRam _ _ _ => false

/-- The shape takes the `FRAM` operations. -/
def isFlatRam : Shape → Bool
  | flatRam _ _ _ => true
  | delayCell => false
  | loadableBit => false
  | wordRegister _ => false
  | flatRegister _ => false
  | memoryNode _ _ => false

/-- A leaf MemoryNode: `A = 3` (rule R121). -/
def isLeaf (sh : Shape) : Bool := sh.isMemoryNode && sh.addressFieldWidth == 3

end Shape

namespace Config

/-- `sched(A)`, root first: rule R123's table and, for an address width not in the table, its default: "root `S = A mod
3` when that is 1 or 2, else 3, and 8-way below" (decision D7, an OPEN parameter: a shape may carry another schedule
where the table has none). DESIGN CHOICE (log 4). -/
def sched (addressWidth : Nat) : List Nat :=
  if addressWidth % 3 = 0 then List.replicate (addressWidth / 3) 3
  else addressWidth % 3 :: List.replicate (addressWidth / 3) 3

/-- The address widths of rule R7's fixed capacities. -/
def fixedAddressWidths : List Nat := [3, 6, 9, 12, 13, 14, 15]

/-- The canonical word width (rule R6). -/
def wordWidth : Nat := 16

/-- The address port width of the FlatRams this machine is created with; `AW >= A` is a parameter of each FlatRam (rule
R150), and 16 is the value of the spec's vectors V6. DESIGN CHOICE (log 2). -/
def portWidth : Nat := 16

/-- The components this machine is created with, by number: 0 is the RAM8 leaf, 1 a DelayCell, 2 a LoadableBit, 3 and 4
a bit-array and a flat WordRegister(16), 5 to 8 the same at widths 4 and 8, 9 to 14 the other six tree RAMs of rule R7,
15 to 21 the seven FlatRams. Every statement of the model is about an arbitrary list of components; this one is
DESIGN CHOICE (log 2). -/
def created : List Shape :=
  [.memoryNode wordWidth (sched 3), .delayCell, .loadableBit, .wordRegister wordWidth, .flatRegister wordWidth,
    .wordRegister 4, .flatRegister 4, .wordRegister 8, .flatRegister 8] ++
  [6, 9, 12, 13, 14, 15].map (fun a => .memoryNode wordWidth (sched a)) ++
  fixedAddressWidths.map (fun a => .flatRam wordWidth a portWidth)

/-- FREE VALUE (log 3): the draw of `randomize` (rule R136). The first argument numbers the draws of a run, the second
the register; no proof can see the numbers. `Machine.drawWords` makes eight distinct words out of eight such numbers,
and every choice of eight distinct words comes out for some numbers. -/
opaque freeDraw : Nat → Nat → Nat

end Config

end Sys2Proof
end

