-- ==== Sys2Proof/Syntax.lean ====
section
/-! DEFINITION. The operations of the block: one constructor for each row of spec/opcode_table.json (rule R60). -/

namespace Sys2Proof

/-- The sixteen operations of rule R60, in the table's order. The first argument names the component the operation is
issued on (rule R70: "a finite sequence of operations on named instances"); the others are the operands of rule R60's
signatures in the signatures' order (rule R61). -/
inductive Instr where
  | dcTick (component : Nat) (input : Bit)
  | dcPeek (component : Nat)
  | dcReset (component : Nat)
  | lbTick (component : Nat) (input : Bit) (writeEnable : Bit)
  | lbPeek (component : Nat)
  | lbReset (component : Nat)
  | wrTick (component : Nat) (input : Nat) (writeEnable : Bit)
  | wrPeek (component : Nat)
  | wrReset (component : Nat)
  | ramTick (component : Nat) (input : Nat) (address : Nat) (writeEnable : Bit)
  | ramPeek (component : Nat) (address : Nat)
  | ramReset (component : Nat)
  | ramRandomize (component : Nat)
  | framTick (component : Nat) (input : Nat) (address : Nat) (writeEnable : Bit)
  | framPeek (component : Nat) (address : Nat)
  | framReset (component : Nat)
deriving DecidableEq, Repr

/-- The component an operation is issued on. -/
def Instr.component : Instr → Nat
  | .dcTick m _ => m
  | .dcPeek m => m
  | .dcReset m => m
  | .lbTick m _ _ => m
  | .lbPeek m => m
  | .lbReset m => m
  | .wrTick m _ _ => m
  | .wrPeek m => m
  | .wrReset m => m
  | .ramTick m _ _ _ => m
  | .ramPeek m _ => m
  | .ramReset m => m
  | .ramRandomize m => m
  | .framTick m _ _ _ => m
  | .framPeek m _ => m
  | .framReset m => m

end Sys2Proof
end

