-- ==== Sys2Proof/WellFormed.lean ====
section
/-! DEFINITION. Well-formed shapes (rules R6, R7, R123, R150) and well-typed operations (rule R60). -/

namespace Sys2Proof

/-- A fan-out schedule: "a list of selector widths in {1, 2, 3} ending in 3" (rule R123, decision D7). -/
def schedOk : List Nat → Bool
  | [] => false
  | [s] => s == 3
  | s :: t :: rest => (s == 1 || s == 2 || s == 3) && schedOk (t :: rest)

/-- A constructible shape: `W >= 1` (rule R6, D4); a schedule of rule R123, the table's own where the table has the
address width ("this schedule must be reproduced exactly"); for a FlatRam `A >= 3` (D7: "`A < 3` is not offered") and
`AW >= A` (rule R150). -/
def Shape.wf : Shape → Bool
  | .delayCell => true
  | .loadableBit => true
  | .wordRegister w => decide (1 ≤ w)
  | .flatRegister w => decide (1 ≤ w)
  | .memoryNode w sched =>
    decide (1 ≤ w) && schedOk sched &&
      (!Config.fixedAddressWidths.contains sched.sum || sched == Config.sched sched.sum)
  | .flatRam w a aw => decide (1 ≤ w) && decide (3 ≤ a) && decide (a ≤ aw)

/-- The operation is one of the component's kind and its operands are values of their types (rules R60, R48, R105):
`input` a word of width `Wf`, `address` a value of `AWf` bits. `randomize` is defined "only for a leaf MemoryNode"
(rule R67) and "needs `2^W >= 8`, that is `W >= 3`" (rule R136). -/
def Instr.wf (sh : Shape) : Instr → Bool
  | .dcTick _ _ => sh == .delayCell
  | .dcPeek _ => sh == .delayCell
  | .dcReset _ => sh == .delayCell
  | .lbTick _ _ _ => sh == .loadableBit
  | .lbPeek _ => sh == .loadableBit
  | .lbReset _ => sh == .loadableBit
  | .wrTick _ v _ => sh.isRegister && Word.fits sh.inWidth v
  | .wrPeek _ => sh.isRegister
  | .wrReset _ => sh.isRegister
  | .ramTick _ v a _ => sh.isMemoryNode && Word.fits sh.inWidth v && Word.fits sh.addressFieldWidth a
  | .ramPeek _ a => sh.isMemoryNode && Word.fits sh.addressFieldWidth a
  | .ramReset _ => sh.isMemoryNode
  | .ramRandomize _ => sh.isLeaf && decide (3 ≤ sh.inWidth)
  | .framTick _ v a _ => sh.isFlatRam && Word.fits sh.inWidth v && Word.fits sh.addressFieldWidth a
  | .framPeek _ a => sh.isFlatRam && Word.fits sh.addressFieldWidth a
  | .framReset _ => sh.isFlatRam

end Sys2Proof
end

