-- ==== Sys2Proof/Decode.lean ====
section
/-! DEFINITION. The command word of 30_encoding.md section 3 (rules R65 to R68): decoding, total, and encoding. -/

namespace Sys2Proof

/-- `v[lo+n-1 : lo]`, that is `(v >> lo) mod 2^n` (rule R11). -/
def bitField (v lo n : Nat) : Nat := (v >>> lo) % 2 ^ n

/-- Why a command word is rejected. -/
inductive Reject where
  /-- The word has a bit above the component's `4 + AWf + Wf` bits: it is no command word of the component (rule R65:
  "one instruction length per instance and one layout"). -/
  | tooWide
  /-- `RANDOMIZE` on a component other than a leaf MemoryNode: "it has no meaning" (rule R67). -/
  | reservedRandomize
deriving DecidableEq, Repr

/-- The four classes of rule R66. -/
inductive CtlClass where
  | reset
  | randomize
  | tick
  | peek
deriving DecidableEq, Repr

/-- One row of rule R66's table, over the 4-bit `ctl` field. -/
structure CtlRow where
  mask : Nat
  pattern : Nat
  cls : CtlClass
deriving DecidableEq, Repr

/-- A `ctl` value falls under a row. -/
def CtlRow.covers (r : CtlRow) (ctl : Nat) : Bool := ctl &&& r.mask == r.pattern

/-- Rule R66: `ctl = {rst, rnd, tck, load}`. -/
def ctlTable : List CtlRow :=
  [⟨0x8, 0x8, .reset⟩, ⟨0xC, 0x4, .randomize⟩, ⟨0xE, 0x2, .tick⟩, ⟨0xE, 0x0, .peek⟩]

/-- "Decoding, by priority, first match wins" (rule R66). The default is never taken: the four classes cover all
sixteen values of `ctl`. -/
def ctlClass (ctl : Nat) : CtlClass :=
  ((ctlTable.find? (fun r => r.covers ctl)).map CtlRow.cls).getD .peek

/-- The command word's three fields put together, most significant first: `ctl | address | in` (rule R65). -/
def commandWord (sh : Shape) (ctl address input : Nat) : Nat :=
  (ctl * 2 ^ sh.addressFieldWidth + address) * 2 ^ sh.inWidth + input

/-- `ctl = word[Wf+AWf+3 : Wf+AWf]` (rule R65). -/
def ctlField (sh : Shape) (w : Nat) : Nat := bitField w (sh.inWidth + sh.addressFieldWidth) 4

/-- `address = word[Wf+AWf-1 : Wf]` (rule R65). -/
def addressField (sh : Shape) (w : Nat) : Nat := bitField w sh.inWidth sh.addressFieldWidth

/-- `in = word[Wf-1 : 0]` (rule R65). -/
def inField (sh : Shape) (w : Nat) : Nat := bitField w 0 sh.inWidth

/-- The operation of a class on a component of a given shape, from the fields "used" by the class (rule R66). On a
DelayCell the `load` bit of a TICK is ignored. -/
def operation (sh : Shape) (m : Nat) (cls : CtlClass) (load : Bit) (address input : Nat) : Except Reject Instr :=
  match sh, cls with
  | .delayCell, .tick => .ok (.dcTick m (input.testBit 0))
  | .delayCell, .peek => .ok (.dcPeek m)
  | .delayCell, .reset => .ok (.dcReset m)
  | .delayCell, .randomize => .error .reservedRandomize
  | .loadableBit, .tick => .ok (.lbTick m (input.testBit 0) load)
  | .loadableBit, .peek => .ok (.lbPeek m)
  | .loadableBit, .reset => .ok (.lbReset m)
  | .loadableBit, .randomize => .error .reservedRandomize
  | .wordRegister _, .tick => .ok (.wrTick m input load)
  | .wordRegister _, .peek => .ok (.wrPeek m)
  | .wordRegister _, .reset => .ok (.wrReset m)
  | .wordRegister _, .randomize => .error .reservedRandomize
  | .flatRegister _, .tick => .ok (.wrTick m input load)
  | .flatRegister _, .peek => .ok (.wrPeek m)
  | .flatRegister _, .reset => .ok (.wrReset m)
  | .flatRegister _, .randomize => .error .reservedRandomize
  | .memoryNode _ _, .tick => .ok (.ramTick m input address load)
  | .memoryNode _ _, .peek => .ok (.ramPeek m address)
  | .memoryNode _ _, .reset => .ok (.ramReset m)
  | .memoryNode _ sched, .randomize => if sched.sum = 3 then .ok (.ramRandomize m) else .error .reservedRandomize
  | .flatRam _ _ _, .tick => .ok (.framTick m input address load)
  | .flatRam _ _ _, .peek => .ok (.framPeek m address)
  | .flatRam _ _ _, .reset => .ok (.framReset m)
  | .flatRam _ _ _, .randomize => .error .reservedRandomize

/-- The operation that a command word presented to component `m` of shape `sh` stands for (rules R65, R66, R67). The
word does not name the component: it is given to the component's own ports (rule R65: "one operation on one
instance"). -/
def decode (sh : Shape) (m w : Nat) : Except Reject Instr :=
  if w < 2 ^ sh.commandWidth then
    operation sh m (ctlClass (ctlField sh w)) ((ctlField sh w).testBit 0) (addressField sh w) (inField sh w)
  else .error .tooWide

/-- `ctl` of a TICK: `001l` (rule R66). -/
def tickCtl (writeEnable : Bit) : Nat := 2 + writeEnable.toNat

/-- The command word of an operation: operands in their fields, ignored bits 0 ("the canonical encoding writes them 0",
rule R67). An `input` given with `writeEnable = 0` is kept in its field (vector V4.2); rule R62's `_` is the operand 0. -/
def encode (sh : Shape) : Instr → Nat
  | .dcTick _ x => commandWord sh 2 0 x.toNat
  | .dcPeek _ => commandWord sh 0 0 0
  | .dcReset _ => commandWord sh 8 0 0
  | .lbTick _ x we => commandWord sh (tickCtl we) 0 x.toNat
  | .lbPeek _ => commandWord sh 0 0 0
  | .lbReset _ => commandWord sh 8 0 0
  | .wrTick _ v we => commandWord sh (tickCtl we) 0 v
  | .wrPeek _ => commandWord sh 0 0 0
  | .wrReset _ => commandWord sh 8 0 0
  | .ramTick _ v a we => commandWord sh (tickCtl we) a v
  | .ramPeek _ a => commandWord sh 0 a 0
  | .ramReset _ => commandWord sh 8 0 0
  | .ramRandomize _ => commandWord sh 4 0 0
  | .framTick _ v a we => commandWord sh (tickCtl we) a v
  | .framPeek _ a => commandWord sh 0 a 0
  | .framReset _ => commandWord sh 8 0 0

/-- The command word that a word of spec/opcode_table.json stands for on a component of shape `sh`. The table's rows
give the 4-bit `ctl` field only (its encoding_note), so the `ctl` bits go to the top of the command word (rule R65) and
the operand fields below are 0. -/
def tableCommand (sh : Shape) (w : Nat) : Nat := commandWord sh (w % 16) 0 0

/-- What the decoder reads from a word of spec/opcode_table.json (`ctl` in bits 3..0, nothing above), presented to
component 0, the RAM8 leaf. The five families' rows have the same `ctl` patterns, and only the component that a word is
presented to tells them apart (log 5). -/
def decodeTableWord (nbits w : Nat) : Option Instr :=
  if 4 ≤ nbits ∧ w < 16 then
    (decode (.memoryNode Config.wordWidth (Config.sched 3)) 0
      (tableCommand (.memoryNode Config.wordWidth (Config.sched 3)) w)).toOption
  else none

end Sys2Proof
end

