-- ==== Sys2Proof/Machine/State.lean ====
section
/-! DEFINITION. The state of the machine (10_state.md rules R20 to R34), the outcomes' reasons, creation and reset. -/

namespace Sys2Proof.Machine

/-- DelayCell: "one field `q`, a bit" (rule R22). -/
structure DelayCell where
  q : Bit
deriving DecidableEq, Repr

/-- LoadableBit: "one field `cell`, a DelayCell" (rule R23). -/
structure LoadableBit where
  cell : DelayCell
deriving DecidableEq, Repr

/-- WordRegister(W), bit-array representation: `bits[0..W-1]`, index `i` holding bit `i` (rule R24). `W` is the number
of bits it owns. -/
structure WordRegister where
  bits : List LoadableBit
deriving DecidableEq, Repr

/-- WordRegister(W), flat representation: one field `value` of `W` bits (rule R25). -/
structure FlatRegister where
  width : Nat
  value : Nat
deriving DecidableEq, Repr

/-- A WordRegister in either representation: two implementations of one contract (rules R60, R105). -/
inductive Register where
  | bitArray (r : WordRegister)
  | flat (r : FlatRegister)
deriving DecidableEq, Repr

mutual
/-- MemoryNode(W, A): "either a leaf (an array of word registers) or an internal node (an array of child memory nodes)"
(rules R26, R121, R122). -/
inductive MemoryNode where
  | leaf (regs : List WordRegister)
  | internal (children : Children)
deriving DecidableEq, Repr
/-- The array `child[0..F-1]` of an internal node. -/
inductive Children where
  | nil
  | cons (head : MemoryNode) (tail : Children)
deriving DecidableEq, Repr
end

/-- The array of children as a list. -/
def Children.toList : Children → List MemoryNode
  | .nil => []
  | .cons n cs => n :: cs.toList

/-- A list of nodes as an array of children. -/
def Children.ofList : List MemoryNode → Children
  | [] => .nil
  | n :: ns => .cons n (ofList ns)

/-- A RAM tree: the root node with its word width `W` and its fan-out schedule, which are "structure fixed at
construction" (rule R21). -/
structure Ram where
  width : Nat
  sched : List Nat
  root : MemoryNode
deriving DecidableEq, Repr

/-- `A`, the address width: the sum of the selector widths (rule R123). -/
def Ram.addressWidth (r : Ram) : Nat := r.sched.sum

/-- The words of a FlatRam, sparse: `(address, word)` pairs, addresses strictly rising, no word 0; an address that is
not listed holds 0 (rules R27, R30). The form is `Memory.wf`. A cell is a word, because the block has no bytes (rule
R43; log 6). -/
abbrev Memory := List (Nat × Nat)

/-- FlatRam(W, C), `C = 2^A`, with an address port of `AW` bits: `mem[0..C-1]` (rules R27, R150). -/
structure FlatRam where
  width : Nat
  addressWidth : Nat
  portWidth : Nat
  mem : Memory
deriving DecidableEq, Repr

/-- `C = 2^A` (rule R7). -/
def FlatRam.capacity (r : FlatRam) : Nat := 2 ^ r.addressWidth

/-- One component, with all the state it owns: components share nothing (rule R34). -/
inductive Component where
  | delayCell (c : DelayCell)
  | loadableBit (b : LoadableBit)
  | register (r : Register)
  | memoryNode (r : Ram)
  | flatRam (r : FlatRam)
deriving DecidableEq, Repr

/-- The structure of a component, which no operation changes (rule R21). -/
def Component.shape : Component → Shape
  | .delayCell _ => .delayCell
  | .loadableBit _ => .loadableBit
  | .register (.bitArray r) => .wordRegister r.bits.length
  | .register (.flat r) => .flatRegister r.width
  | .memoryNode r => .memoryNode r.width r.sched
  | .flatRam r => .flatRam r.width r.addressWidth r.portWidth

/-- One line of the host's trace, not yet performed: a command word (rule R65) presented to a named component (rule
R70). -/
structure Command where
  component : Nat
  word : Nat
deriving DecidableEq, Repr

/-- A word that a `tick` or `peek` returned, with the component that returned it. A bit is the word 0 or 1. -/
structure Returned where
  component : Nat
  word : Nat
deriving DecidableEq, Repr

/-- The state of the machine. `components` is the block's own state, all of it (rule R20: "the only storage ... is the
stored bit of each DelayCell"; rules R25, R27 for the flat representations). The block has no program counter, flag,
status, mode or control register (rules R31, R32, R187). The other three fields are the MODEL's own: the host's trace,
the words the host has seen (rule R215), and the number of draws made, from which the free value of `randomize` is
taken (rule R136). -/
structure State where
  /-- The components, named by their number (rule R70). -/
  components : List Component
  /-- The host's operations still to be performed, first one first (rules R9, R70). Log 7. -/
  trace : List Command
  /-- The words returned so far, newest first (rule R215). Log 8. -/
  returned : List Returned
  /-- How many draws `randomize` has made (rule R136). Log 3. -/
  draws : Nat
deriving DecidableEq, Repr

/-- There is no fault: "no operation of the block raises an exception, signals an error, returns a status or can fail"
(rule R180), and "nothing in this block is `fault`" (93_implementation_defined.md). The type has no constructor. -/
inductive Fault
deriving DecidableEq, Repr

/-- Why the model gives an input no meaning. "Refusals of the model are not exceptions of the hardware" (rule R182):
each errs toward unprovable (safe). -/
inductive Refusal where
  /-- `exec` answers it for an instruction with no meaning yet; no arm does. Safe. -/
  | notModelled (mnemonic : String)
  /-- `step` and every meaning answer it when the operation names a component that does not exist: the host issues
  operations on existing instances only (rule R70). Safe. -/
  | noSuchComponent
  /-- Every meaning answers it when the named component is of another kind: it offers no such operation (rule R60).
  Safe. -/
  | wrongComponent
  /-- A meaning with an `input` or `address` answers it when the operand is not a value of its type: a tree address
  outside `0 .. 2^A - 1` "cannot be presented" (rule R48), a wider data value is not admitted (rule R105, U12). No
  decoded command word reaches it. Safe. -/
  | operandNotTyped
  /-- `step` answers it for a word that is no command word of the component (rule R65). Safe. -/
  | commandTooWide
  /-- `step`, and the meaning of `RAM.RANDOMIZE`, answer it for `RANDOMIZE` on anything but a leaf MemoryNode: the source
  defines none there (rules R67, R137, U7). Safe. -/
  | reservedRandomize
  /-- The meaning of `RAM.RANDOMIZE` answers it at `W < 3`: no eight words are distinct (rule R136, U7). Safe. -/
  | noDistinctDraw
deriving DecidableEq, Repr

/-- A created DelayCell: `q = 0` (rule R22). -/
def DelayCell.zero : DelayCell := ⟨false⟩

/-- A created LoadableBit: `cell.q = 0` (rule R23). -/
def LoadableBit.zero : LoadableBit := ⟨.zero⟩

/-- A created bit-array register: "every bit is 0" (rule R24). -/
def WordRegister.zero (width : Nat) : WordRegister := ⟨List.replicate width .zero⟩

/-- A created tree of a given schedule: eight registers in a leaf (rule R121), `F = 2^S` children in an internal node
(rule R122), "every register of every leaf has value 0" (rule R26). -/
def MemoryNode.zero (width : Nat) : List Nat → MemoryNode
  | [] => .leaf (List.replicate 8 (.zero width))
  | [_] => .leaf (List.replicate 8 (.zero width))
  | s :: t :: rest => .internal (.ofList (List.replicate (2 ^ s) (zero width (t :: rest))))

/-- A component right after creation (rules R22 to R27, R202). -/
def Component.created : Shape → Component
  | .delayCell => .delayCell .zero
  | .loadableBit => .loadableBit .zero
  | .wordRegister w => .register (.bitArray (.zero w))
  | .flatRegister w => .register (.flat ⟨w, 0⟩)
  | .memoryNode w sched => .memoryNode ⟨w, sched, .zero w sched⟩
  | .flatRam w a aw => .flatRam ⟨w, a, aw, []⟩

/-- A machine right after the creation of the given components: "all entities are created once at simulator start with
zero state" (rule R202); no operation has been issued. -/
def State.created (shapes : List Shape) : State :=
  { components := shapes.map Component.created, trace := [], returned := [], draws := 0 }

/-- The machine right after reset: creation, which is "indistinguishable from creation followed by `reset()`" (rule
R202). -/
def State.reset : State := State.created Config.created

end Sys2Proof.Machine
end

