-- ==== Sys2Proof/Machine/Operands.lean ====
section
/-! DEFINITION. The operand forms: the bits of an `input` word (rule R61), the split of a tree address (rules R124,
R132), the wrap of a flat address (rule R154), the signed reading of a word (rule R12). -/

namespace Sys2Proof.Machine

/-- The `n` bits of a word, bit 0 first: `input[i]` goes to LoadableBit `i` (rules R11, R61). -/
def wordBits (n : Nat) (v : Nat) : List Bit := (List.range n).map (fun i => v.testBit i)

/-- "The word whose bit `i` is `o[i]`" (rules R24, R100): `sum over i of o[i] * 2^i`. -/
def packBits : List Bit → Nat
  | [] => 0
  | b :: bs => b.toNat + 2 * packBits bs

/-- A bit as the word 0 or 1. -/
def bitWord (b : Bit) : Nat := b.toNat

/-- `high = address >> (A-S)`, the child selected; `lowWidth` is `A-S` (rule R124). -/
def highSegment (lowWidth address : Nat) : Nat := address >>> lowWidth

/-- `low = address mod 2^(A-S)`, forwarded to the child (rule R124). -/
def lowSegment (lowWidth address : Nat) : Nat := address % 2 ^ lowWidth

/-- The path of an address from the root down to its register (rule R132): child indices, and last the register's index
in its leaf. -/
def addressPath : List Nat → Nat → List Nat
  | [], _ => []
  | s :: rest, a => (a >>> rest.sum) % 2 ^ s :: addressPath rest a

/-- The location a FlatRam uses: `address mod C` (rule R154). -/
def FlatRam.location (r : FlatRam) (address : Nat) : Nat := address % r.capacity

/-- `sint_W(v)`: `v` if `v < 2^(W-1)`, else `v - 2^W` (rule R12). The formula is the standard one (PRESUMED, log 10). -/
def signedValue (width : Nat) (v : Nat) : Int :=
  if v < 2 ^ (width - 1) then (v : Int) else (v : Int) - 2 ^ width

/-- The `W`-bit pattern of an integer; for a negative `-n` it is `2^W - n` (rule R70). -/
def signedPattern (width : Nat) (z : Int) : Nat := (z % 2 ^ width).toNat

end Sys2Proof.Machine
end

