-- ==== Sys2Proof/Machine/Ops.lean ====
section
/-! DEFINITION. The operations the meanings share: the memory of a FlatRam, finding the component an operation is issued
on, and giving it its next state. Taking an exception and returning from one have no place here: the block has neither
(rules R180, R185, R186). -/

namespace Sys2Proof.Machine

/-- `mem[a]` (rule R27): an address that is not listed holds 0 (rule R30). -/
def Memory.read : Memory → Nat → Nat
  | [], _ => 0
  | (b, w) :: m, a => if a = b then w else Memory.read m a

/-- `mem[a] <- v` (rule R151). The form stays canonical: writing 0 removes the entry. -/
def Memory.write : Memory → Nat → Nat → Memory
  | [], a, v => if v = 0 then [] else [(a, v)]
  | (b, w) :: m, a, v =>
    if a < b then (if v = 0 then (b, w) :: m else (a, v) :: (b, w) :: m)
    else if a = b then (if v = 0 then m else (a, v) :: m)
    else (b, w) :: Memory.write m a v

/-- The canonical form: addresses strictly rising, no word 0. -/
def Memory.wf : Memory → Bool
  | [] => true
  | (a, v) :: m => v != 0 && m.all (fun p => decide (a < p.1)) && Memory.wf m

/-- Every entry is a word of `W` bits at an address below `C` (rule R27). -/
def Memory.within (width capacity : Nat) (m : Memory) : Bool :=
  m.all (fun p => decide (p.1 < capacity) && Word.fits width p.2)

/-- The state after an operation on component `m` whose next state is `c`: nothing else of the machine changes (rule
R34), but the host has one more returned word where the operation returns one. -/
def State.commit (s : State) (m : Nat) (c : Component) (out : Option Nat) : State :=
  { s with
    components := s.components.set m c
    returned := (out.map (Returned.mk m)).toList ++ s.returned }

/-- The state after an operation that only reads: "leaves `s` unchanged" (rule R42), and the host has the word. -/
def State.emit (s : State) (m : Nat) (out : Nat) : State :=
  { s with returned := ⟨m, out⟩ :: s.returned }

/-- Run `k` on the DelayCell that component `m` is. -/
def State.onDelayCell (s : State) (m : Nat) (k : DelayCell → Host.Outcome State Fault Refusal) :
    Host.Outcome State Fault Refusal :=
  match s.components[m]? with
  | some (.delayCell c) => k c
  | some _ => .refused .wrongComponent
  | none => .refused .noSuchComponent

/-- Run `k` on the LoadableBit that component `m` is. -/
def State.onLoadableBit (s : State) (m : Nat) (k : LoadableBit → Host.Outcome State Fault Refusal) :
    Host.Outcome State Fault Refusal :=
  match s.components[m]? with
  | some (.loadableBit b) => k b
  | some _ => .refused .wrongComponent
  | none => .refused .noSuchComponent

/-- Run `k` on the WordRegister, of either representation, that component `m` is. -/
def State.onRegister (s : State) (m : Nat) (k : Register → Host.Outcome State Fault Refusal) :
    Host.Outcome State Fault Refusal :=
  match s.components[m]? with
  | some (.register r) => k r
  | some _ => .refused .wrongComponent
  | none => .refused .noSuchComponent

/-- Run `k` on the MemoryNode that component `m` is. -/
def State.onRam (s : State) (m : Nat) (k : Ram → Host.Outcome State Fault Refusal) :
    Host.Outcome State Fault Refusal :=
  match s.components[m]? with
  | some (.memoryNode r) => k r
  | some _ => .refused .wrongComponent
  | none => .refused .noSuchComponent

/-- Run `k` on the FlatRam that component `m` is. -/
def State.onFlatRam (s : State) (m : Nat) (k : FlatRam → Host.Outcome State Fault Refusal) :
    Host.Outcome State Fault Refusal :=
  match s.components[m]? with
  | some (.flatRam r) => k r
  | some _ => .refused .wrongComponent
  | none => .refused .noSuchComponent

/-- Go on only where the operands are values of their types (rules R48, R105). -/
def whenTyped (typed : Bool) (k : Host.Outcome State Fault Refusal) : Host.Outcome State Fault Refusal :=
  if typed then k else .refused .operandNotTyped

end Sys2Proof.Machine
end

