-- ==== Sys2Proof/Machine/DelayCell.lean ====
section
/-! DEFINITION. DelayCell: 40_delay_cell.md. -/

namespace Sys2Proof.Machine

/-- `return s.q; s.q <- input` (rule R80). The pair is the returned bit and the next state. -/
def DelayCell.tick (input : Bit) (c : DelayCell) : Bit × DelayCell := (c.q, ⟨input⟩)

/-- `return s.q` (rule R81). -/
def DelayCell.peek (c : DelayCell) : Bit := c.q

/-- `s.q <- 0` (rule R82). -/
def DelayCell.reset (_ : DelayCell) : DelayCell := ⟨false⟩

/-- `DC.TICK` (rule R80). -/
def execDcTick (m : Nat) (input : Bit) (s : State) : Host.Outcome State Fault Refusal :=
  s.onDelayCell m fun c => .next (s.commit m (.delayCell (c.tick input).2) (some (bitWord (c.tick input).1)))

/-- `DC.PEEK` (rule R81). -/
def execDcPeek (m : Nat) (s : State) : Host.Outcome State Fault Refusal :=
  s.onDelayCell m fun c => .next (s.emit m (bitWord c.peek))

/-- `DC.RESET` (rule R82). -/
def execDcReset (m : Nat) (s : State) : Host.Outcome State Fault Refusal :=
  s.onDelayCell m fun c => .next (s.commit m (.delayCell c.reset) none)

end Sys2Proof.Machine
end

