-- ==== Sys2Proof/Machine/FlatRam.lean ====
section
/-! DEFINITION. FlatRam(W, C), the direct-array RAM: 44_flat_ram.md. -/

namespace Sys2Proof.Machine

/-- `i = address mod C; return s.mem[i]; if writeEnable = 1: s.mem[i] <- input` (rule R151). -/
def FlatRam.tick (input : Nat) (address : Nat) (writeEnable : Bit) (r : FlatRam) : Nat × FlatRam :=
  (r.mem.read (r.location address),
    if writeEnable then { r with mem := r.mem.write (r.location address) input } else r)

/-- `return s.mem[address mod C]` (rule R152). -/
def FlatRam.peek (address : Nat) (r : FlatRam) : Nat := r.mem.read (r.location address)

/-- `for a in 0..C-1: s.mem[a] <- 0` (rule R153): the memory that lists nothing. -/
def FlatRam.reset (r : FlatRam) : FlatRam := { r with mem := [] }

/-- `FRAM.TICK` (rule R151); `address` is an `AW`-bit value by type, wrapped modulo `C`. -/
def execFramTick (m : Nat) (input : Nat) (address : Nat) (writeEnable : Bit) (s : State) :
    Host.Outcome State Fault Refusal :=
  s.onFlatRam m fun r =>
    whenTyped (Word.fits r.width input && Word.fits r.portWidth address)
      (.next (s.commit m (.flatRam (r.tick input address writeEnable).2) (some (r.tick input address writeEnable).1)))

/-- `FRAM.PEEK` (rule R152). -/
def execFramPeek (m : Nat) (address : Nat) (s : State) : Host.Outcome State Fault Refusal :=
  s.onFlatRam m fun r => whenTyped (Word.fits r.portWidth address) (.next (s.emit m (r.peek address)))

/-- `FRAM.RESET` (rule R153). -/
def execFramReset (m : Nat) (s : State) : Host.Outcome State Fault Refusal :=
  s.onFlatRam m fun r => .next (s.commit m (.flatRam r.reset) none)

end Sys2Proof.Machine
end

