-- ==== Sys2Proof/Machine/LoadableBit.lean ====
section
/-! DEFINITION. LoadableBit: 41_loadable_bit.md. -/

namespace Sys2Proof.Machine

/-- `selected = writeEnable ? input : DC.PEEK(s.cell); return DC.TICK(s.cell, selected)` (rule R90). -/
def LoadableBit.tick (input writeEnable : Bit) (b : LoadableBit) : Bit × LoadableBit :=
  let selected := if writeEnable then input else b.cell.peek
  ((b.cell.tick selected).1, ⟨(b.cell.tick selected).2⟩)

/-- `return DC.PEEK(s.cell)` (rule R91). -/
def LoadableBit.peek (b : LoadableBit) : Bit := b.cell.peek

/-- `DC.RESET(s.cell)` (rule R92). -/
def LoadableBit.reset (b : LoadableBit) : LoadableBit := ⟨b.cell.reset⟩

/-- `LB.TICK` (rule R90). -/
def execLbTick (m : Nat) (input writeEnable : Bit) (s : State) : Host.Outcome State Fault Refusal :=
  s.onLoadableBit m fun b =>
    .next (s.commit m (.loadableBit (b.tick input writeEnable).2) (some (bitWord (b.tick input writeEnable).1)))

/-- `LB.PEEK` (rule R91). -/
def execLbPeek (m : Nat) (s : State) : Host.Outcome State Fault Refusal :=
  s.onLoadableBit m fun b => .next (s.emit m (bitWord b.peek))

/-- `LB.RESET` (rule R92). -/
def execLbReset (m : Nat) (s : State) : Host.Outcome State Fault Refusal :=
  s.onLoadableBit m fun b => .next (s.commit m (.loadableBit b.reset) none)

end Sys2Proof.Machine
end

