-- ==== Sys2Proof/Machine/Routing.lean ====
section
/-! DEFINITION. The routing primitives the memory consumes: 45_routing_primitives.md. They hold no state (rule R170). -/

namespace Sys2Proof.Machine

/-- `DMUX_F(x, sel)`: `y[k] = (k = sel) ? x : 0` for `k` in `0..F-1` (rule R166). -/
def dmux (ways : Nat) (x : Bit) (sel : Nat) : List Bit :=
  (List.range ways).map (fun k => if k = sel then x else false)

/-- `MUX_F(d, sel) = d[sel]` on words (rule R167). A selector outside the inputs cannot be presented: it has `S` bits
for `2^S` inputs; the 0 given there is never taken (log 9). -/
def mux (d : List Nat) (sel : Nat) : Nat := d[sel]?.getD 0

/-- The one-bit multiplexer (rule R165: "over single bits"). -/
def muxBit (d : List Bit) (sel : Nat) : Bit := d[sel]?.getD false

/-- The index a selector list names when its first element is the least significant bit: `sum_j sel[j] * 2^j` (rule
R168). -/
def lsbFirstIndex : List Bit → Nat
  | [] => 0
  | b :: bs => b.toNat + 2 * lsbFirstIndex bs

/-- The number a list of bits denotes when its first element is the most significant bit, as the address is given:
`sum_j a[j] * 2^(n-1-j)` (rule R125). -/
def msbFirstIndex (a : List Bit) : Nat := a.foldl (fun n b => 2 * n + b.toNat) 0

/-- The adaptation between the two: "`sel[j] = a[S-1-j]`" (rule R125). -/
def reverseSelector (a : List Bit) : List Bit := a.reverse

end Sys2Proof.Machine
end

