-- ==== Sys2Proof/Machine/WordRegister.lean ====
section
/-! DEFINITION. WordRegister(W), bit-array and flat: 42_word_register.md. -/

namespace Sys2Proof.Machine

/-- `for i: o[i] = LB.TICK(s.bits[i], input[i], writeEnable); return the word whose bit i is o[i]` (rule R100). -/
def WordRegister.tick (input : Nat) (writeEnable : Bit) (r : WordRegister) : Nat × WordRegister :=
  let ticked := List.zipWith (fun b x => b.tick x writeEnable) r.bits (wordBits r.bits.length input)
  (packBits (ticked.map Prod.fst), ⟨ticked.map Prod.snd⟩)

/-- `return the word whose bit i is LB.PEEK(s.bits[i])` (rule R101). -/
def WordRegister.peek (r : WordRegister) : Nat := packBits (r.bits.map LoadableBit.peek)

/-- `for i in 0..W-1: LB.RESET(s.bits[i])` (rule R102). -/
def WordRegister.reset (r : WordRegister) : WordRegister := ⟨r.bits.map LoadableBit.reset⟩

/-- `return s.value; if writeEnable = 1: s.value <- input` (rule R105). -/
def FlatRegister.tick (input : Nat) (writeEnable : Bit) (r : FlatRegister) : Nat × FlatRegister :=
  (r.value, if writeEnable then { r with value := input } else r)

/-- `return s.value` (rule R105). -/
def FlatRegister.peek (r : FlatRegister) : Nat := r.value

/-- `s.value <- 0` (rule R105). -/
def FlatRegister.reset (r : FlatRegister) : FlatRegister := { r with value := 0 }

/-- `W`. -/
def Register.width : Register → Nat
  | .bitArray r => r.bits.length
  | .flat r => r.width

/-- `tick` of either representation (rules R100, R105). -/
def Register.tick (input : Nat) (writeEnable : Bit) : Register → Nat × Register
  | .bitArray r => ((r.tick input writeEnable).1, .bitArray (r.tick input writeEnable).2)
  | .flat r => ((r.tick input writeEnable).1, .flat (r.tick input writeEnable).2)

/-- `peek` of either representation (rules R101, R105). -/
def Register.peek : Register → Nat
  | .bitArray r => r.peek
  | .flat r => r.peek

/-- `reset` of either representation (rules R102, R105). -/
def Register.reset : Register → Register
  | .bitArray r => .bitArray r.reset
  | .flat r => .flat r.reset

/-- `WR.TICK` (rules R100, R105); `input` is a `W`-bit value by type. -/
def execWrTick (m : Nat) (input : Nat) (writeEnable : Bit) (s : State) : Host.Outcome State Fault Refusal :=
  s.onRegister m fun r =>
    whenTyped (Word.fits r.width input)
      (.next (s.commit m (.register (r.tick input writeEnable).2) (some (r.tick input writeEnable).1)))

/-- `WR.PEEK` (rules R101, R105). -/
def execWrPeek (m : Nat) (s : State) : Host.Outcome State Fault Refusal :=
  s.onRegister m fun r => .next (s.emit m r.peek)

/-- `WR.RESET` (rules R102, R105). -/
def execWrReset (m : Nat) (s : State) : Host.Outcome State Fault Refusal :=
  s.onRegister m fun r => .next (s.commit m (.register r.reset) none)

end Sys2Proof.Machine
end

