-- ==== Sys2Proof/Machine/MemoryNode.lean ====
section
/-! DEFINITION. MemoryNode(W, A), the recursive RAM: 43_recursive_ram.md. The functions on a node take its fan-out
schedule (rule R123), which with the node's kind fixes the widths; a node that does not have its schedule's shape is
never constructed (rule R158), and what the functions answer on one is never taken (log 9). -/

namespace Sys2Proof.Machine

/-- `RAM.TICK` of one node. Leaf (rule R126): demultiplex the enable by the address, tick EVERY register with the same
input and its own enable, multiplex the outputs. Internal node (rule R128): the same over the children, by `high`, each
child ticked with the same `low`. -/
def MemoryNode.tick : List Nat → Nat → Nat → Bit → MemoryNode → Nat × MemoryNode
  | _, input, address, writeEnable, .leaf regs =>
    let ticked := List.zipWith (fun r en => r.tick input en) regs (dmux 8 writeEnable address)
    (mux (ticked.map Prod.fst) address, .leaf (ticked.map Prod.snd))
  | s :: rest, input, address, writeEnable, .internal children =>
    let high := highSegment rest.sum address
    let low := lowSegment rest.sum address
    let ticked := List.zipWith (fun c en => tick rest input low en c) children.toList (dmux (2 ^ s) writeEnable high)
    (mux (ticked.map Prod.fst) high, .internal (.ofList (ticked.map Prod.snd)))
  | [], _, _, _, .internal children => (0, .internal children)

/-- `RAM.PEEK` of one node (rule R127): leaf `WR.PEEK(s.regs[address])`, internal `RAM.PEEK(s.child[high], low)`; every
child peeked at `low` and the words multiplexed by `high`, as the source has it. -/
def MemoryNode.peek : List Nat → Nat → MemoryNode → Nat
  | _, address, .leaf regs => mux (regs.map WordRegister.peek) address
  | _ :: rest, address, .internal children =>
    mux (children.toList.map (fun c => peek rest (lowSegment rest.sum address) c)) (highSegment rest.sum address)
  | [], _, .internal _ => 0

/-- `RAM.RESET` of one node (rule R133): "recursively zeroes every leaf register". -/
def MemoryNode.reset : List Nat → MemoryNode → MemoryNode
  | _, .leaf regs => .leaf (regs.map WordRegister.reset)
  | _ :: rest, .internal children => .internal (.ofList (children.toList.map (reset rest)))
  | [], .internal children => .internal children

/-- The short-circuited tick, which ticks only the selected child and register. It is NOT the definition ("must not be
short-circuited", rule R128); rule R131 says it gives the same word and state. -/
def MemoryNode.tickSelected : List Nat → Nat → Nat → Bit → MemoryNode → Nat × MemoryNode
  | _, input, address, writeEnable, .leaf regs =>
    match regs[address]? with
    | some r => ((r.tick input writeEnable).1, .leaf (regs.set address (r.tick input writeEnable).2))
    | none => (0, .leaf regs)
  | _ :: rest, input, address, writeEnable, .internal children =>
    let high := highSegment rest.sum address
    match children.toList[high]? with
    | some c =>
      let ticked := tickSelected rest input (lowSegment rest.sum address) writeEnable c
      (ticked.1, .internal (.ofList (children.toList.set high ticked.2)))
    | none => (0, .internal children)
  | [], _, _, _, .internal children => (0, .internal children)

/-- One real tick per register of a leaf, enable 1, each register with its own input, past the leaf's routing (rule
R135): `for k in 0..7: discard WR.TICK(s.regs[k], r(k), 1)`. -/
def randomizeRegisters (r : List Nat) (regs : List WordRegister) : List WordRegister :=
  List.zipWith (fun reg v => (reg.tick v true).2) regs r

/-- Distinct words of `W` bits out of free numbers: each number picks among the words not yet `used`, in rising order.
Every list of distinct words comes out for some numbers, so nothing but "distinct" is fixed (rule R136). -/
def drawWords (width : Nat) : List Nat → List Nat → List Nat
  | [], _ => []
  | n :: ns, used =>
    let free := (List.range (2 ^ width)).filter (fun w => !used.contains w)
    let w := free[n % free.length]?.getD 0
    w :: drawWords width ns (w :: used)

/-- The draw number `n` of the run: eight distinct words (rule R136), taken from the free value `Config.freeDraw`. -/
def draw (width n : Nat) : List Nat := drawWords width ((List.range 8).map (Config.freeDraw n)) []

/-- `tick` of a RAM tree (rules R126, R128). -/
def Ram.tick (input : Nat) (address : Nat) (writeEnable : Bit) (r : Ram) : Nat × Ram :=
  let ticked := r.root.tick r.sched input address writeEnable
  (ticked.1, { r with root := ticked.2 })

/-- `peek` of a RAM tree (rule R127). -/
def Ram.peek (address : Nat) (r : Ram) : Nat := r.root.peek r.sched address

/-- `reset` of a RAM tree (rule R133). -/
def Ram.reset (r : Ram) : Ram := { r with root := r.root.reset r.sched }

/-- `RAM.TICK` (rules R126, R128); `address` is an `A`-bit value by type (rule R48). -/
def execRamTick (m : Nat) (input : Nat) (address : Nat) (writeEnable : Bit) (s : State) :
    Host.Outcome State Fault Refusal :=
  s.onRam m fun r =>
    whenTyped (Word.fits r.width input && Word.fits r.addressWidth address)
      (.next (s.commit m (.memoryNode (r.tick input address writeEnable).2) (some (r.tick input address writeEnable).1)))

/-- `RAM.PEEK` (rule R127). -/
def execRamPeek (m : Nat) (address : Nat) (s : State) : Host.Outcome State Fault Refusal :=
  s.onRam m fun r => whenTyped (Word.fits r.addressWidth address) (.next (s.emit m (r.peek address)))

/-- `RAM.RESET` (rule R133). -/
def execRamReset (m : Nat) (s : State) : Host.Outcome State Fault Refusal :=
  s.onRam m fun r => .next (s.commit m (.memoryNode r.reset) none)

/-- `RAM.RANDOMIZE` with the draw `r` (rule R135): leaf only, and `W >= 3` (rules R136, R137). -/
def randomizeWith (r : List Nat) (m : Nat) (s : State) : Host.Outcome State Fault Refusal :=
  s.onRam m fun ram =>
    match ram.root with
    | .internal _ => .refused .reservedRandomize
    | .leaf regs =>
      if 3 ≤ ram.width then
        .next ({ s with draws := s.draws + 1 }.commit m
          (.memoryNode { ram with root := .leaf (randomizeRegisters r regs) }) none)
      else .refused .noDistinctDraw

/-- The word width of component `m`, 0 if it is no MemoryNode. -/
def State.ramWidth (s : State) (m : Nat) : Nat :=
  match s.components[m]? with
  | some (.memoryNode r) => r.width
  | some _ => 0
  | none => 0

/-- `RAM.RANDOMIZE` (rules R135, R136): the step supplies the draw, a free value (log 3). -/
def execRamRandomize (m : Nat) (s : State) : Host.Outcome State Fault Refusal :=
  randomizeWith (draw (s.ramWidth m) s.draws) m s

end Sys2Proof.Machine
end

