-- ==== Sys2Proof/Machine/Dispatch.lean ====
section
/-! DEFINITION. One arm per operation of rule R60. -/

namespace Sys2Proof.Machine

def exec (i : Instr) (s : State) : Host.Outcome State Fault Refusal :=
  match i with
  | .dcTick m x => Sys2Proof.Machine.execDcTick m x s
  | .dcPeek m => Sys2Proof.Machine.execDcPeek m s
  | .dcReset m => Sys2Proof.Machine.execDcReset m s
  | .lbTick m x we => Sys2Proof.Machine.execLbTick m x we s
  | .lbPeek m => Sys2Proof.Machine.execLbPeek m s
  | .lbReset m => Sys2Proof.Machine.execLbReset m s
  | .wrTick m v we => Sys2Proof.Machine.execWrTick m v we s
  | .wrPeek m => Sys2Proof.Machine.execWrPeek m s
  | .wrReset m => Sys2Proof.Machine.execWrReset m s
  | .ramTick m v a we => Sys2Proof.Machine.execRamTick m v a we s
  | .ramPeek m a => Sys2Proof.Machine.execRamPeek m a s
  | .ramReset m => Sys2Proof.Machine.execRamReset m s
  | .ramRandomize m => Sys2Proof.Machine.execRamRandomize m s
  | .framTick m v a we => Sys2Proof.Machine.execFramTick m v a we s
  | .framPeek m a => Sys2Proof.Machine.execFramPeek m a s
  | .framReset m => Sys2Proof.Machine.execFramReset m s

end Sys2Proof.Machine
end

