-- ==== Sys2Proof/Machine/Fetch.lean ====
section
/-! DEFINITION. Where the next operation comes from: the host's trace (rules R9, R31, R70). -/

namespace Sys2Proof.Machine

/-- The refusal a rejected command word ends in. -/
def Refusal.ofReject : Reject → Refusal
  | .tooWide => .commandTooWide
  | .reservedRandomize => .reservedRandomize

/-- The host's next command and the state with it taken off the trace; none at the trace's end. -/
def State.fetch (s : State) : Option (Command × State) :=
  match s.trace with
  | [] => none
  | c :: rest => some (c, { s with trace := rest })

/-- The operation a command stands for: its word decoded by the component it is presented to (rules R65, R66). -/
def State.decodeCommand (s : State) (c : Command) : Except Refusal Instr :=
  match s.components[c.component]? with
  | none => .error .noSuchComponent
  | some k =>
    match decode k.shape c.component c.word with
    | .ok i => .ok i
    | .error e => .error (Refusal.ofReject e)

/-- The host's program for a run: a trace is given to the machine from outside (rules R9, R215). -/
def State.load (s : State) (program : List Command) : State := { s with trace := program }

/-- The shape of component `m`; a DelayCell's where there is none. -/
def State.shapeOf (s : State) (m : Nat) : Shape :=
  match s.components[m]? with
  | some k => k.shape
  | none => .delayCell

/-- A word of spec/opcode_table.json put in front of the trace, presented to component 0. -/
def State.placeTableWord (s : State) (w : Nat) : State :=
  { s with trace := ⟨0, tableCommand (s.shapeOf 0) w⟩ :: s.trace }

end Sys2Proof.Machine
end

