-- ==== Sys2Proof/Machine/Step.lean ====
section
/-! DEFINITION. One step of the machine: the host's next operation, performed whole (rules R9, R50). -/

namespace Sys2Proof.Machine

/-- The next operation of the trace is decoded and performed on the state with that operation taken off the trace. At
the trace's end nothing happens: "a block that is not being called does nothing and keeps its state" (rule R192). -/
def step (s : State) : Host.Outcome State Fault Refusal :=
  match s.fetch with
  | none => .next s
  | some (c, s') =>
    match s.decodeCommand c with
    | .error e => .refused e
    | .ok i => exec i s'

/-- `s` with a word of spec/opcode_table.json in front of the host's trace, presented to component 0 (log 5). -/
def State.withFetchWord (s : State) (_nbits w : Nat) : State := s.placeTableWord w

end Sys2Proof.Machine
end

