-- ==== Sys2Proof/Machine/Flags.lean ====
section
/-! DEFINITION. The flags: "the block has none" (rule R32); every operation's "Flags written" line reads "none". -/

namespace Sys2Proof.Machine

/-- The flags and condition codes of the block: none (rule R32). -/
inductive Flag
deriving DecidableEq, Repr

/-- The flags an operation writes: none (rule R32 and the last lines of every operation's rule). -/
def flagsWritten (_ : Instr) : List Flag := []

end Sys2Proof.Machine
end

