-- ==== Sys2Proof/Machine/Pins.lean ====
section
/-! DEFINITION. The pin-level interface: rules R63 and R64 (the spec's own choice, decisions D1 and D2). -/

namespace Sys2Proof.Machine

/-- The input pins of a component at one instant (rule R63). `edge` is 1 at a rising edge of `clk`. A pin that a
component lacks (`load` on a DelayCell, `address` outside the RAMs) is not looked at. -/
structure Pins where
  edge : Bit
  rst : Bit
  input : Nat
  load : Bit
  address : Nat
deriving DecidableEq, Repr

/-- The pin `out`: "a combinational function of the state and of `address` only" (rule R63). -/
def Component.out : Component → Nat → Nat
  | .delayCell c, _ => bitWord c.peek
  | .loadableBit b, _ => bitWord b.peek
  | .register r, _ => r.peek
  | .memoryNode r, a => r.peek a
  | .flatRam r, a => r.peek a

/-- The operation the pins ask for (rule R64): while `rst` is 1 the reset, which wins over a coinciding edge (rule R184);
at a rising edge of `clk` the tick; with neither, sampling `out`, the peek. `randomize()` "has no pin". -/
def Pins.operation (p : Pins) (m : Nat) : Shape → Instr
  | .delayCell => if p.rst then .dcReset m else if p.edge then .dcTick m (p.input.testBit 0) else .dcPeek m
  | .loadableBit => if p.rst then .lbReset m else if p.edge then .lbTick m (p.input.testBit 0) p.load else .lbPeek m
  | .wordRegister _ => if p.rst then .wrReset m else if p.edge then .wrTick m p.input p.load else .wrPeek m
  | .flatRegister _ => if p.rst then .wrReset m else if p.edge then .wrTick m p.input p.load else .wrPeek m
  | .memoryNode _ _ =>
    if p.rst then .ramReset m else if p.edge then .ramTick m p.input p.address p.load else .ramPeek m p.address
  | .flatRam _ _ _ =>
    if p.rst then .framReset m else if p.edge then .framTick m p.input p.address p.load else .framPeek m p.address

/-- "The edge commits the next state" (rule R64): the component's next state under its own tick (rules R80, R90, R100,
R105, R126, R128, R151), with the operands on the pins. -/
def Component.afterEdge (p : Pins) : Component → Component
  | .delayCell c => .delayCell (c.tick (p.input.testBit 0)).2
  | .loadableBit b => .loadableBit (b.tick (p.input.testBit 0) p.load).2
  | .register r => .register (r.tick p.input p.load).2
  | .memoryNode r => .memoryNode (r.tick p.input p.address p.load).2
  | .flatRam r => .flatRam (r.tick p.input p.address p.load).2

/-- The command word with the same signals: `ctl = {rst, rnd, tck, load}` with `rnd = 0` (rules R65, R184). -/
def Pins.commandWord (p : Pins) (sh : Shape) : Nat :=
  Sys2Proof.commandWord sh (8 * p.rst.toNat + 2 * p.edge.toNat + p.load.toNat) p.address p.input

/-- What a component does under its pins (rule R64): the operation they ask for. -/
def State.drivePins (s : State) (m : Nat) (p : Pins) : Host.Outcome State Fault Refusal :=
  match s.components[m]? with
  | some c => exec (p.operation m c.shape) s
  | none => .refused .noSuchComponent

end Sys2Proof.Machine
end

