-- ==== Sys2Proof/Machine/Trace.lean ====
section
/-! DEFINITION. The host's trace as it is written: rules R70 and R71 (the spec's own choice, decision D11), and the ticks
an operation takes (rule R213). -/

namespace Sys2Proof.Machine

/-- A numeral of a trace line: "decimal, or hexadecimal with `0x`; a negative decimal `-n`", or `_` for an ignored
operand (rule R70). -/
inductive Numeral where
  | plain (n : Nat)
  | negative (n : Nat)
  | ignored
deriving DecidableEq, Repr

/-- The word a numeral denotes as the `in` operand of a component with words of `W` bits: `-n` is "the `W`-bit pattern
`2^W - n`" (rule R70). `_` "denotes an ignored operand" and is encoded as 0 (rules R62, R70); where the operand is NOT
ignored, `writeEnable = 1`, the spec gives `_` no meaning, and the line is not read. DESIGN CHOICE (log 14). -/
def Numeral.word (width : Nat) (writeEnable : Bit) : Numeral → Option Nat
  | .plain n => some n
  | .negative n => if 1 ≤ n ∧ n ≤ 2 ^ width then some (2 ^ width - n) else none
  | .ignored => if writeEnable then none else some 0

/-- The address a numeral denotes. Rule R70 has negative decimals for `<in>` only; no `tick` or `peek` of a RAM ignores
its address, so `_` is no address: the spec gives it no meaning there. DESIGN CHOICE (log 14). -/
def Numeral.address : Numeral → Option Nat
  | .plain n => some n
  | .negative _ => none
  | .ignored => none

/-- The bit a numeral denotes where the bit is used: an enable, or the `in` of a DelayCell, which always stores it. The
spec gives `_` no meaning for an operand that is not ignored, so it is no bit. DESIGN CHOICE (log 14). -/
def Numeral.bit : Numeral → Option Bit
  | .plain 0 => some false
  | .plain 1 => some true
  | .plain _ => none
  | .negative _ => none
  | .ignored => none

/-- The bit a numeral denotes as the `in` operand of a LoadableBit: as `Numeral.bit`, but an input that `writeEnable = 0`
makes ignored may be `_`, encoded as 0 (rules R62, R70). -/
def Numeral.inputBit (writeEnable : Bit) : Numeral → Option Bit
  | .ignored => if writeEnable then none else some false
  | .plain n => (Numeral.plain n).bit
  | .negative n => (Numeral.negative n).bit

/-- The word after the dot of a trace line (rule R70). -/
inductive Verb where
  | tick
  | peek
  | reset
  | randomize
deriving DecidableEq, Repr

/-- One line of a trace: `<inst>.<verb> <operands>` (rule R70), its component by number. -/
structure Line where
  component : Nat
  verb : Verb
  operands : List Numeral
deriving DecidableEq, Repr

/-- The operation a line stands for on a component of a given shape, its operands "in the order of the source's
signatures" (rules R61, R70); none for a line that rule R70 does not list for the component. -/
def Line.operation (sh : Shape) (l : Line) : Option Instr := do
  match sh, l.verb, l.operands with
  | .delayCell, .tick, [x] => return .dcTick l.component (← x.bit)
  | .delayCell, .peek, [] => some (.dcPeek l.component)
  | .delayCell, .reset, [] => some (.dcReset l.component)
  | .loadableBit, .tick, [x, we] => do
    let e ← we.bit
    return .lbTick l.component (← x.inputBit e) e
  | .loadableBit, .peek, [] => some (.lbPeek l.component)
  | .loadableBit, .reset, [] => some (.lbReset l.component)
  | .wordRegister w, .tick, [v, we] => do
    let e ← we.bit
    return .wrTick l.component (← v.word w e) e
  | .wordRegister _, .peek, [] => some (.wrPeek l.component)
  | .wordRegister _, .reset, [] => some (.wrReset l.component)
  | .flatRegister w, .tick, [v, we] => do
    let e ← we.bit
    return .wrTick l.component (← v.word w e) e
  | .flatRegister _, .peek, [] => some (.wrPeek l.component)
  | .flatRegister _, .reset, [] => some (.wrReset l.component)
  | .memoryNode w _, .tick, [v, a, we] => do
    let e ← we.bit
    return .ramTick l.component (← v.word w e) (← a.address) e
  | .memoryNode _ _, .peek, [a] => return .ramPeek l.component (← a.address)
  | .memoryNode _ _, .reset, [] => some (.ramReset l.component)
  | .memoryNode _ _, .randomize, [] => some (.ramRandomize l.component)
  | .flatRam w _ _, .tick, [v, a, we] => do
    let e ← we.bit
    return .framTick l.component (← v.word w e) (← a.address) e
  | .flatRam _ _ _, .peek, [a] => return .framPeek l.component (← a.address)
  | .flatRam _ _ _, .reset, [] => some (.framReset l.component)
  | _, _, _ => none

/-- The value of a hexadecimal digit. -/
def hexDigit (c : Char) : Option Nat :=
  if c.isDigit then some (c.toNat - '0'.toNat)
  else if 'a' ≤ c ∧ c ≤ 'f' then some (c.toNat - 'a'.toNat + 10)
  else if 'A' ≤ c ∧ c ≤ 'F' then some (c.toNat - 'A'.toNat + 10)
  else none

/-- The number a non-empty list of digits denotes in a base. -/
def digitsValue (base : Nat) : List Char → Option Nat
  | [] => none
  | cs => cs.foldl (fun n c => do
      let d ← hexDigit c
      if d < base then some (base * (← n) + d) else none) (some 0)

/-- A numeral, read from its characters (rule R70). -/
def readNumeral : List Char → Option Numeral
  | ['_'] => some .ignored
  | '-' :: cs => (digitsValue 10 cs).map .negative
  | '0' :: 'x' :: cs => (digitsValue 16 cs).map .plain
  | cs => (digitsValue 10 cs).map .plain

/-- A verb, read from its characters (rule R70). -/
def readVerb : List Char → Option Verb
  | ['t', 'i', 'c', 'k'] => some .tick
  | ['p', 'e', 'e', 'k'] => some .peek
  | ['r', 'e', 's', 'e', 't'] => some .reset
  | ['r', 'a', 'n', 'd', 'o', 'm', 'i', 'z', 'e'] => some .randomize
  | _ => none

/-- Comma-separated numerals, blanks left out. -/
def readNumerals (cs : List Char) : Option (List Numeral) :=
  match cs.filter (fun c => c != ' ') with
  | [] => some []
  | ds => (ds.splitOn ',').mapM readNumeral

/-- One line of a trace, read from its characters; `names` names the components by their position, and "the text after
`;` is a comment" (rule R70). -/
def readLine (names : List (List Char)) (text : List Char) : Option Line := do
  let cs := text.takeWhile (fun c => c != ';')
  let name := (cs.takeWhile (fun c => c != '.')).filter (fun c => c != ' ')
  let rest := (cs.dropWhile (fun c => c != '.')).drop 1
  let m ← names.findIdx? (fun n => n == name)
  let v ← readVerb (rest.takeWhile (fun c => c != ' '))
  let operands ← readNumerals (rest.dropWhile (fun c => c != ' '))
  return ⟨m, v, operands⟩

/-- A trace line as the command it is performed as (rules R65, R70), where it is a well-typed operation of its
component; `shapes` are the components' shapes. -/
def Line.command (shapes : List Shape) (l : Line) : Option Command := do
  let sh ← shapes[l.component]?
  let i ← l.operation sh
  if i.wf sh then some ⟨l.component, encode sh i⟩ else none

/-- The pseudo-operations on a RAM (rule R71). -/
inductive Pseudo where
  | write (input : Nat) (address : Nat)
  | read (address : Nat)
  | idle
  | swap (input : Nat) (address : Nat)
deriving DecidableEq, Repr

/-- A pseudo-operation's expansion on a RAM tree (rule R71). -/
def Pseudo.onMemoryNode (m : Nat) : Pseudo → Instr
  | .write v a => .ramTick m v a true
  | .read a => .ramTick m 0 a false
  | .idle => .ramTick m 0 0 false
  | .swap v a => .ramTick m v a true

/-- A pseudo-operation's expansion on a FlatRam (rule R71). -/
def Pseudo.onFlatRam (m : Nat) : Pseudo → Instr
  | .write v a => .framTick m v a true
  | .read a => .framTick m 0 a false
  | .idle => .framTick m 0 0 false
  | .swap v a => .framTick m v a true

/-- The ticks of the timing contract that an operation takes: "a `tick` operation is one tick; `peek`, `reset` and
`randomize` consume no tick" (rule R213). -/
def tickCount : Instr → Nat
  | .dcTick _ _ => 1
  | .dcPeek _ => 0
  | .dcReset _ => 0
  | .lbTick _ _ _ => 1
  | .lbPeek _ => 0
  | .lbReset _ => 0
  | .wrTick _ _ _ => 1
  | .wrPeek _ => 0
  | .wrReset _ => 0
  | .ramTick _ _ _ _ => 1
  | .ramPeek _ _ => 0
  | .ramReset _ => 0
  | .ramRandomize _ => 0
  | .framTick _ _ _ _ => 1
  | .framPeek _ _ => 0
  | .framReset _ => 0

end Sys2Proof.Machine
end

