-- ==== Sys2Proof/Machine/Observe.lean ====
section
/-! DEFINITION. What is observable: the value of a register (rule R24), the flat view of a RAM (rule R41), the register
at the end of a path (rule R132), the counts of rule R28. -/

namespace Sys2Proof.Machine

/-- `val(s) = sum over i of s.bits[i].cell.q * 2^i` (rule R24). -/
def WordRegister.val (r : WordRegister) : Nat := packBits (r.bits.map (fun b => b.cell.q))

/-- `view(s)(a)` of a node (rule R41): `val(s.regs[a])` in a leaf, `view(s.child[a >> (A-S)])(a mod 2^(A-S))` in an
internal node. An index that names nothing is never taken for an address in range (log 9). -/
def MemoryNode.view : List Nat → MemoryNode → Nat → Nat
  | _, .leaf regs, a => (regs[a]?.map WordRegister.val).getD 0
  | _ :: rest, .internal children, a =>
    (children.toList.map (fun c => view rest c (lowSegment rest.sum a)))[highSegment rest.sum a]?.getD 0
  | [], .internal _, _ => 0

/-- `view(s)` of a RAM tree (rule R41). -/
def Ram.view (r : Ram) (a : Nat) : Nat := r.root.view r.sched a

/-- `view(s)(a) = s.mem[a]` (rule R41). -/
def FlatRam.view (r : FlatRam) (a : Nat) : Nat := r.mem.read a

/-- The value of a register of either representation (rules R24, R25: `value = val(s)`). -/
def Register.val : Register → Nat
  | .bitArray r => r.val
  | .flat r => r.value

/-- How many locations a component has: `C = 2^A` in a RAM (rule R40), one in a component that "has no address at all". -/
def Component.locations : Component → Nat
  | .delayCell _ => 1
  | .loadableBit _ => 1
  | .register _ => 1
  | .memoryNode r => 2 ^ r.addressWidth
  | .flatRam r => r.capacity

/-- The word a component holds at location `a`: `view(s)(a)` in a RAM; the stored bit or word of a component that has no
address, whatever `a` is. -/
def Component.view : Component → Nat → Nat
  | .delayCell c, _ => bitWord c.q
  | .loadableBit b, _ => bitWord b.cell.q
  | .register r, _ => r.val
  | .memoryNode r, a => r.view a
  | .flatRam r, a => r.view a

/-- The word that component `m` holds at location `a`; 0 where there is no such component. -/
def State.view (s : State) (m a : Nat) : Nat :=
  match s.components[m]? with
  | some c => c.view a
  | none => 0

/-- The register at the end of a path `child[h_1]. ... .regs[h_n]` (rule R132). -/
def MemoryNode.registerAt : List Nat → MemoryNode → Option WordRegister
  | [h], .leaf regs => regs[h]?
  | h :: path, .internal children => (children.toList[h]?).bind (registerAt path)
  | [], .leaf _ => none
  | _ :: _ :: _, .leaf _ => none
  | [], .internal _ => none

/-- All the word registers of a node, in the order of their addresses (rule R26). -/
def MemoryNode.registers : List Nat → MemoryNode → List WordRegister
  | _, .leaf regs => regs
  | _ :: rest, .internal children => children.toList.flatMap (registers rest)
  | [], .internal _ => []

/-- How many DelayCells a node owns (rules R26, R28). -/
def MemoryNode.cellCount (sched : List Nat) (n : MemoryNode) : Nat :=
  ((n.registers sched).map (fun r => r.bits.length)).sum

end Sys2Proof.Machine
end

