-- ==== Sys2Proof/Safety.lean ====
section
/-! DEFINITION. What counts as a safe state and a run, in the terms the statements use. -/

namespace Sys2Proof.Machine

/-- A node has the shape of its schedule (rules R26, R121, R122): eight registers of `W` bits in a leaf, whose own 3-bit
select is the schedule's last entry; `2^S` children, each with the shape of the rest of the schedule, elsewhere. -/
def MemoryNode.wf (width : Nat) : List Nat → MemoryNode → Bool
  | [s], .leaf regs => s == 3 && regs.length == 8 && regs.all (fun r => r.bits.length == width)
  | s :: t :: rest, .internal children =>
    children.toList.length == 2 ^ s && children.toList.all (fun c => wf width (t :: rest) c)
  | [], .leaf _ => false
  | _ :: _ :: _, .leaf _ => false
  | [_], .internal _ => false
  | [], .internal _ => false

/-- A component as it can be: its shape is constructible, and its contents fit the shape (rules R24 to R27, R158). -/
def Component.wf : Component → Bool
  | .delayCell _ => true
  | .loadableBit _ => true
  | .register (.bitArray r) => decide (1 ≤ r.bits.length)
  | .register (.flat r) => decide (1 ≤ r.width) && Word.fits r.width r.value
  | .memoryNode r => (Shape.memoryNode r.width r.sched).wf && r.root.wf r.width r.sched
  | .flatRam r =>
    (Shape.flatRam r.width r.addressWidth r.portWidth).wf && r.mem.wf && r.mem.within r.width r.capacity

/-- A word the host has seen is a word of the width of the component that returned it (rule R60). -/
def State.returnedFits (s : State) (r : Returned) : Bool :=
  match s.components[r.component]? with
  | some c => Word.fits c.shape.inWidth r.word
  | none => false

/-- The machine's invariant: every component is as it can be, and every returned word has its component's width. -/
def State.wf (s : State) : Bool := s.components.all Component.wf && s.returned.all s.returnedFits

/-- The operations performed one after the other: "ordering is total and externally imposed" (rule R50). -/
def runOps : List Instr → State → Host.Outcome State Fault Refusal
  | [], s => .next s
  | i :: is, s =>
    match exec i s with
    | .next s' => runOps is s'
    | .fault r => .fault r
    | .refused r => .refused r

/-- The location that an address operand names: `address mod C` in a FlatRam (rule R154), the address itself in a tree
(rule R48). -/
def locationOf : Shape → Nat → Nat
  | .flatRam _ aw _, a => a % 2 ^ aw
  | .memoryNode _ _, a => a
  | .delayCell, a => a
  | .loadableBit, a => a
  | .wordRegister _, a => a
  | .flatRegister _, a => a

/-- The operation can change what component `m`, of shape `sh`, holds at location `a`: a `tick` with `writeEnable = 1`
at that location, a `reset` or a `randomize` (rules R50, R210). -/
def writes (sh : Shape) (m a : Nat) : Instr → Bool
  | .dcTick m' _ => m' == m
  | .dcPeek _ => false
  | .dcReset m' => m' == m
  | .lbTick m' _ we => m' == m && we
  | .lbPeek _ => false
  | .lbReset m' => m' == m
  | .wrTick m' _ we => m' == m && we
  | .wrPeek _ => false
  | .wrReset m' => m' == m
  | .ramTick m' _ a' we => m' == m && we && locationOf sh a' == a
  | .ramPeek _ _ => false
  | .ramReset m' => m' == m
  | .ramRandomize m' => m' == m
  | .framTick m' _ a' we => m' == m && we && locationOf sh a' == a
  | .framPeek _ _ => false
  | .framReset m' => m' == m

/-- The operations of a WordRegister, to be issued on either representation (rule R107). -/
inductive RegisterOp where
  | tick (input : Nat) (writeEnable : Bit)
  | peek
  | reset
deriving DecidableEq, Repr

/-- The operation issued on component `m`. -/
def RegisterOp.on (m : Nat) : RegisterOp → Instr
  | .tick v we => .wrTick m v we
  | .peek => .wrPeek m
  | .reset => .wrReset m

/-- The operand is a word of the register's width. -/
def RegisterOp.typed (width : Nat) : RegisterOp → Bool
  | .tick v _ => Word.fits width v
  | .peek => true
  | .reset => true

/-- The operations a tree and a FlatRam share (rule R155). -/
inductive RamOp where
  | tick (input : Nat) (address : Nat) (writeEnable : Bit)
  | peek (address : Nat)
  | reset
deriving DecidableEq, Repr

/-- The operation issued on a tree. -/
def RamOp.onTree (m : Nat) : RamOp → Instr
  | .tick v a we => .ramTick m v a we
  | .peek a => .ramPeek m a
  | .reset => .ramReset m

/-- The operation issued on a FlatRam. -/
def RamOp.onFlat (m : Nat) : RamOp → Instr
  | .tick v a we => .framTick m v a we
  | .peek a => .framPeek m a
  | .reset => .framReset m

/-- The operation at the address the tree has for it: "it equals the tree at `address mod 2^A`" (rule R155). -/
def RamOp.wrapped (addressWidth : Nat) : RamOp → RamOp
  | .tick v a we => .tick v (a % 2 ^ addressWidth) we
  | .peek a => .peek (a % 2 ^ addressWidth)
  | .reset => .reset

/-- The operands are a word of the RAM's width and an address of a given width. -/
def RamOp.typed (width addressWidth : Nat) : RamOp → Bool
  | .tick v a _ => Word.fits width v && Word.fits addressWidth a
  | .peek a => Word.fits addressWidth a
  | .reset => true

end Sys2Proof.Machine
end

