-- ==== Sys2Proof/Certificates/Slice0/Obligations.lean ====
section
/-! DEFINITION. The statements for the provers. -/

open Sys2Proof Sys2Proof.Machine

/-! ### Encoding -/

/-- The worked command words of rule R68 and of the vectors V2, V4, V6, V9, P3, P4, one or more for each family. The
encoding is the spec's own choice (D9), here and in the statements below. -/
def Obligations.SpecCommandWordsDecode : Prop :=
  decode (.memoryNode 16 [3, 3]) 0 0x0CD0521 = .ok (.ramTick 0 1313 13 true) ∧
  decode (.memoryNode 16 [3, 3]) 0 0x08D0000 = .ok (.ramTick 0 0 13 false) ∧
  decode (.memoryNode 16 [3, 3]) 0 0x00D0000 = .ok (.ramPeek 0 13) ∧
  decode (.memoryNode 16 [3, 3]) 0 0x0000000 = .ok (.ramPeek 0 0) ∧
  decode (.memoryNode 16 [3, 3]) 0 0x2000000 = .ok (.ramReset 0) ∧
  decode (.memoryNode 16 [3, 3]) 0 0x1000000 = .error .reservedRandomize ∧
  decode (.memoryNode 16 [3]) 0 0x200000 = .ok (.ramRandomize 0) ∧
  decode (.flatRam 16 6 16) 0 0x3004D0521 = .ok (.framTick 0 1313 77 true) ∧
  decode (.wordRegister 4) 0 0x3A = .ok (.wrTick 0 0xA true) ∧
  decode .loadableBit 0 0x07 = .ok (.lbTick 0 true true) ∧
  decode .delayCell 0 0x05 = .ok (.dcTick 0 true)

/-- Decode and encode agree: for every shape and every operation that is well-typed on it, with every operand at every
value, the encoding fits the shape's command word and decodes to the operation (rules R65, R66). -/
def Obligations.DecodeOfEncodeIsTheOperation : Prop :=
  ∀ (sh : Shape) (i : Instr), i.wf sh = true →
    encode sh i < 2 ^ (4 + sh.addressFieldWidth + sh.inWidth) ∧ decode sh i.component (encode sh i) = .ok i

/-- The decoder on every word: a word of the command's width decodes to an operation on the component it is presented
to, well-typed but for a `RANDOMIZE` at `W < 3`, unless it is a `RANDOMIZE` off the leaf, which is refused; a longer
word is no command word (rules R65, R66, R67), which the model names `tooWide` (log 11). -/
def Obligations.DecoderIsTotal : Prop :=
  ∀ (sh : Shape) (m w : Nat),
    (w < 2 ^ sh.commandWidth → ctlClass (ctlField sh w) = .randomize → sh.isLeaf = false →
      decode sh m w = .error .reservedRandomize) ∧
    (w < 2 ^ sh.commandWidth → (ctlClass (ctlField sh w) = .randomize → sh.isLeaf = true) →
      ∃ i, decode sh m w = .ok i ∧ i.component = m ∧
        ((ctlClass (ctlField sh w) = .randomize → 3 ≤ sh.inWidth) → i.wf sh = true)) ∧
    (2 ^ sh.commandWidth ≤ w → decode sh m w = .error .tooWide)

/-- Rule R66's classes partition the sixteen values of `ctl`: each value falls under exactly one row of the table. -/
def Obligations.ControlClassesPartition : Prop :=
  ∀ ctl < 16, (ctlTable.filter (fun r => r.covers ctl)).map CtlRow.cls = [ctlClass ctl]

/-- Ignored bits may hold any value (rule R67): two command words of one class that agree on the fields the class uses
decode to one operation. RESET and RANDOMIZE use no field, PEEK the address, TICK the address, the input and (but on a
DelayCell) the load bit. -/
def Obligations.IgnoredBitsDoNotMatter : Prop :=
  ∀ (sh : Shape) (m w w' : Nat), w < 2 ^ sh.commandWidth → w' < 2 ^ sh.commandWidth →
    ctlClass (ctlField sh w) = ctlClass (ctlField sh w') →
    (ctlClass (ctlField sh w) = .tick ∨ ctlClass (ctlField sh w) = .peek → addressField sh w = addressField sh w') →
    (ctlClass (ctlField sh w) = .tick → inField sh w = inField sh w' ∧
      (sh = .delayCell ∨ (ctlField sh w).testBit 0 = (ctlField sh w').testBit 0)) →
    decode sh m w = decode sh m w'

/-! ### The step -/

/-- A step runs the decoded operation: when the host's next command decodes to `i`, the step is `exec i` on the state
with that command taken off the trace. That the trace is held in State and its first command taken off is the model's
reading of the host (log 7, DEDUCED), and a command is a pair of a component and a word by the model's choice (log 5). -/
def Obligations.StepRunsTheDecodedCommand : Prop :=
  ∀ (s : State) (c : Command) (rest : List Command) (k : Component) (i : Instr),
    s.trace = c :: rest → s.components[c.component]? = some k → decode k.shape c.component c.word = .ok i →
    step s = exec i { s with trace := rest }

/-- At the trace's end a step changes nothing (rules R9, R192; the model's choice, log 7). -/
def Obligations.StepWithoutCommandKeepsTheState : Prop := ∀ s : State, s.trace = [] → step s = .next s

/-- A rejected command word is refused, and so is a command for a component that does not exist (the model's refusals,
rules R67, R182; log 11). -/
def Obligations.StepRefusesRejectedCommands : Prop :=
  ∀ (s : State) (c : Command) (rest : List Command), s.trace = c :: rest →
    (s.components[c.component]? = none → step s = .refused .noSuchComponent) ∧
    (∀ k, s.components[c.component]? = some k → decode k.shape c.component c.word = .error .reservedRandomize →
      step s = .refused .reservedRandomize) ∧
    (∀ k, s.components[c.component]? = some k → decode k.shape c.component c.word = .error .tooWide →
      step s = .refused .commandTooWide)

/-! ### Creation and reset -/

/-- The machine is created with every component readable as 0 at every location, whatever the components are (rules R30,
R202); the components that `State.reset` has are the model's choice (log 2). -/
def Obligations.CreationReadsZeroEverywhere : Prop :=
  State.reset = State.created Config.created ∧
  ∀ (shapes : List Shape) (m a : Nat), (State.created shapes).view m a = 0

/-- The invariant holds of every machine created from constructible shapes, and so at reset. -/
def Obligations.CreationIsWellFormed : Prop :=
  State.reset.wf = true ∧ ∀ shapes : List Shape, shapes.all Shape.wf = true → (State.created shapes).wf = true

/-- A reset completes, returns nothing, touches no other component, and leaves the component as created (rule R201): for
the five kinds of component. -/
def Obligations.ResetLeavesTheComponentAsCreated : Prop :=
  ∀ (s : State) (m : Nat) (c : Component), s.components[m]? = some c → c.wf = true →
    let t := { s with components := s.components.set m (Component.created c.shape) }
    (c.shape = .delayCell → exec (.dcReset m) s = .next t) ∧
    (c.shape = .loadableBit → exec (.lbReset m) s = .next t) ∧
    (c.shape.isRegister = true → exec (.wrReset m) s = .next t) ∧
    (c.shape.isMemoryNode = true → exec (.ramReset m) s = .next t) ∧
    (c.shape.isFlatRam = true → exec (.framReset m) s = .next t)

/-- Calling `reset()` then `peek` at any address returns 0 with no tick between (rule R200), for the five kinds of
component. -/
def Obligations.PeekAfterResetIsZero : Prop :=
  ∀ (s : State) (m a : Nat) (c : Component), s.components[m]? = some c → c.wf = true →
    (c.shape = .delayCell → ∃ t u, exec (.dcReset m) s = .next t ∧ exec (.dcPeek m) t = .next u ∧
      u.returned = ⟨m, 0⟩ :: s.returned) ∧
    (c.shape = .loadableBit → ∃ t u, exec (.lbReset m) s = .next t ∧ exec (.lbPeek m) t = .next u ∧
      u.returned = ⟨m, 0⟩ :: s.returned) ∧
    (c.shape.isRegister = true → ∃ t u, exec (.wrReset m) s = .next t ∧ exec (.wrPeek m) t = .next u ∧
      u.returned = ⟨m, 0⟩ :: s.returned) ∧
    (c.shape.isMemoryNode = true → a < 2 ^ c.shape.addressFieldWidth → ∃ t u, exec (.ramReset m) s = .next t ∧
      exec (.ramPeek m a) t = .next u ∧ u.returned = ⟨m, 0⟩ :: s.returned) ∧
    (c.shape.isFlatRam = true → a < 2 ^ c.shape.addressFieldWidth → ∃ t u, exec (.framReset m) s = .next t ∧
      exec (.framPeek m a) t = .next u ∧ u.returned = ⟨m, 0⟩ :: s.returned)

/-! ### DelayCell -/

/-- `DC.TICK` (rule R80): the whole next state, the flags (none) and the encoding `ctl = 001-`. -/
def Obligations.DelayCellTick : Prop :=
  ∀ (s : State) (m : Nat) (q x load : Bit), s.components[m]? = some (.delayCell ⟨q⟩) →
    exec (.dcTick m x) s = .next { s with
      components := s.components.set m (.delayCell ⟨x⟩), returned := ⟨m, q.toNat⟩ :: s.returned } ∧
    flagsWritten (.dcTick m x) = [] ∧
    decode .delayCell m (commandWord .delayCell (2 + load.toNat) 0 x.toNat) = .ok (.dcTick m x)

/-- `DC.PEEK` (rule R81): the bit is returned and nothing else changes; the encoding `ctl = 000-`. -/
def Obligations.DelayCellPeek : Prop :=
  ∀ (s : State) (m : Nat) (q x load : Bit), s.components[m]? = some (.delayCell ⟨q⟩) →
    exec (.dcPeek m) s = .next { s with returned := ⟨m, q.toNat⟩ :: s.returned } ∧
    flagsWritten (.dcPeek m) = [] ∧
    decode .delayCell m (commandWord .delayCell load.toNat 0 x.toNat) = .ok (.dcPeek m)

/-- `DC.RESET` (rule R82): the stored bit is 0, nothing is returned and nothing else changes; the encoding `ctl =
1---`. -/
def Obligations.DelayCellReset : Prop :=
  ∀ (s : State) (m : Nat) (q x : Bit) (low : Fin 8), s.components[m]? = some (.delayCell ⟨q⟩) →
    exec (.dcReset m) s = .next { s with components := s.components.set m (.delayCell ⟨false⟩) } ∧
    flagsWritten (.dcReset m) = [] ∧
    decode .delayCell m (commandWord .delayCell (8 + low) 0 x.toNat) = .ok (.dcReset m)

/-- One-cycle latency (rule R83): a run of ticks on one cell returns the stored bit and then the inputs, all but the
last, and leaves the last input stored. The words returned are the newest first. -/
def Obligations.DelayCellLatency : Prop :=
  ∀ (s : State) (m : Nat) (q : Bit) (xs : List Bit), s.components[m]? = some (.delayCell ⟨q⟩) →
    runOps (xs.map (Instr.dcTick m)) s = .next { s with
      components := s.components.set m (.delayCell ⟨xs.getLastD q⟩)
      returned := (((q :: xs).take xs.length).map (fun b => Returned.mk m b.toNat)).reverse ++ s.returned }

/-! ### LoadableBit -/

/-- `LB.TICK` (rule R90): the whole next state, the flags (none) and the encoding `ctl = 001l`. -/
def Obligations.LoadableBitTick : Prop :=
  ∀ (s : State) (m : Nat) (q x we : Bit), s.components[m]? = some (.loadableBit ⟨⟨q⟩⟩) →
    exec (.lbTick m x we) s = .next { s with
      components := s.components.set m (.loadableBit ⟨⟨if we then x else q⟩⟩)
      returned := ⟨m, q.toNat⟩ :: s.returned } ∧
    flagsWritten (.lbTick m x we) = [] ∧
    decode .loadableBit m (commandWord .loadableBit (2 + we.toNat) 0 x.toNat) = .ok (.lbTick m x we)

/-- `LB.PEEK` and `LB.RESET` (rules R91, R92): whole next states, flags (none) and encodings. -/
def Obligations.LoadableBitPeekAndReset : Prop :=
  ∀ (s : State) (m : Nat) (q x load : Bit) (low : Fin 8), s.components[m]? = some (.loadableBit ⟨⟨q⟩⟩) →
    exec (.lbPeek m) s = .next { s with returned := ⟨m, q.toNat⟩ :: s.returned } ∧
    exec (.lbReset m) s = .next { s with components := s.components.set m (.loadableBit ⟨⟨false⟩⟩) } ∧
    flagsWritten (.lbPeek m) = [] ∧ flagsWritten (.lbReset m) = [] ∧
    decode .loadableBit m (commandWord .loadableBit load.toNat 0 x.toNat) = .ok (.lbPeek m) ∧
    decode .loadableBit m (commandWord .loadableBit (8 + low) 0 x.toNat) = .ok (.lbReset m)

/-- Write visibility delay (rule R94): a run of ticks returns at each tick the bit decided by the ticks before it, and
the bit stored after the run is the last one decided. -/
def Obligations.LoadableBitVisibilityDelay : Prop :=
  ∀ (s : State) (m : Nat) (q : Bit) (ts : List (Bit × Bit)), s.components[m]? = some (.loadableBit ⟨⟨q⟩⟩) →
    let stored := ts.scanl (fun b t => if t.2 then t.1 else b) q
    runOps (ts.map (fun t => .lbTick m t.1 t.2)) s = .next { s with
      components := s.components.set m (.loadableBit ⟨⟨stored.getLastD q⟩⟩)
      returned := ((stored.take ts.length).map (fun b => Returned.mk m b.toNat)).reverse ++ s.returned }

/-- A LoadableBit whose enable is 1 on every tick behaves as a DelayCell (rule R95): the same bits are returned and the
same bit is left stored, over any run of ticks. -/
def Obligations.EnabledLoadableBitIsADelayCell : Prop :=
  ∀ (s u : State) (m : Nat) (q : Bit) (xs : List Bit), s.components[m]? = some (.loadableBit ⟨⟨q⟩⟩) →
    u.components[m]? = some (.delayCell ⟨q⟩) → s.returned = u.returned →
    ∃ s' u' q', runOps (xs.map (fun x => .lbTick m x true)) s = .next s' ∧
      runOps (xs.map (fun x => .dcTick m x)) u = .next u' ∧ s'.returned = u'.returned ∧
      s'.components[m]? = some (.loadableBit ⟨⟨q'⟩⟩) ∧ u'.components[m]? = some (.delayCell ⟨q'⟩)

/-! ### WordRegister -/

/-- `WR.TICK` on the bit-array (rule R100): the value is returned; with the enable 1 LoadableBit `i` holds bit `i` of the
input, with 0 nothing changes. Also the flags (none) and the encoding `ctl = 001l`. -/
def Obligations.WordRegisterTick : Prop :=
  ∀ (s : State) (m : Nat) (r : WordRegister) (v : Nat) (we : Bit),
    s.components[m]? = some (.register (.bitArray r)) → v < 2 ^ r.bits.length →
    exec (.wrTick m v we) s = .next { s with
      components := s.components.set m (.register (.bitArray
        (if we then ⟨(List.range r.bits.length).map (fun i => ⟨⟨v.testBit i⟩⟩)⟩ else r)))
      returned := ⟨m, r.val⟩ :: s.returned } ∧
    flagsWritten (.wrTick m v we) = [] ∧
    decode (.wordRegister r.bits.length) m (commandWord (.wordRegister r.bits.length) (2 + we.toNat) 0 v) =
      .ok (.wrTick m v we)

/-- `WR.PEEK` and `WR.RESET` on the bit-array (rules R101, R102): whole next states, flags (none) and encodings. -/
def Obligations.WordRegisterPeekAndReset : Prop :=
  ∀ (s : State) (m : Nat) (r : WordRegister) (v : Nat) (load : Bit) (low : Fin 8),
    s.components[m]? = some (.register (.bitArray r)) → v < 2 ^ r.bits.length →
    exec (.wrPeek m) s = .next { s with returned := ⟨m, r.val⟩ :: s.returned } ∧
    exec (.wrReset m) s = .next { s with
      components := s.components.set m (.register (.bitArray ⟨List.replicate r.bits.length ⟨⟨false⟩⟩⟩)) } ∧
    flagsWritten (.wrPeek m) = [] ∧ flagsWritten (.wrReset m) = [] ∧
    decode (.wordRegister r.bits.length) m (commandWord (.wordRegister r.bits.length) load.toNat 0 v) =
      .ok (.wrPeek m) ∧
    decode (.wordRegister r.bits.length) m (commandWord (.wordRegister r.bits.length) (8 + low) 0 v) =
      .ok (.wrReset m)

/-- The flat register's three operations (rule R105): whole next states, flags (none) and encodings; an input wider than
the register is not admitted (the refusal is U12's treatment, log 11). -/
def Obligations.FlatRegisterOperations : Prop :=
  ∀ (s : State) (m : Nat) (r : FlatRegister) (v : Nat) (we load : Bit) (low : Fin 8),
    s.components[m]? = some (.register (.flat r)) → v < 2 ^ r.width →
    exec (.wrTick m v we) s = .next { s with
      components := s.components.set m (.register (.flat ⟨r.width, if we then v else r.value⟩))
      returned := ⟨m, r.value⟩ :: s.returned } ∧
    exec (.wrPeek m) s = .next { s with returned := ⟨m, r.value⟩ :: s.returned } ∧
    exec (.wrReset m) s = .next { s with components := s.components.set m (.register (.flat ⟨r.width, 0⟩)) } ∧
    flagsWritten (.wrTick m v we) = [] ∧ flagsWritten (.wrPeek m) = [] ∧ flagsWritten (.wrReset m) = [] ∧
    decode (.flatRegister r.width) m (commandWord (.flatRegister r.width) (2 + we.toNat) 0 v) = .ok (.wrTick m v we) ∧
    decode (.flatRegister r.width) m (commandWord (.flatRegister r.width) load.toNat 0 v) = .ok (.wrPeek m) ∧
    decode (.flatRegister r.width) m (commandWord (.flatRegister r.width) (8 + low) 0 v) = .ok (.wrReset m) ∧
    ∀ wide, 2 ^ r.width ≤ wide → exec (.wrTick m wide we) s = .refused .operandNotTyped

/-- The register law (rule R104): over any run of ticks, in either representation, tick `t` returns `v@(t-1)`, and `v@t`
is `x_t` where `we_t` is 1 and `v@(t-1)` elsewhere. -/
def Obligations.RegisterLaw : Prop :=
  ∀ (s : State) (m : Nat) (r : Register) (ts : List (Nat × Bit)), s.components[m]? = some (.register r) →
    (∀ t ∈ ts, t.1 < 2 ^ r.width) →
    let values := ts.scanl (fun v t => if t.2 then t.1 else v) r.val
    ∃ t r', runOps (ts.map (fun t => .wrTick m t.1 t.2)) s = .next t ∧
      t.returned = ((values.take ts.length).map (Returned.mk m)).reverse ++ s.returned ∧
      t.components = s.components.set m (.register r') ∧ r'.val = values.getLastD r.val

/-- Bit-array / flat equivalence (rule R107): from one value, over any sequence of typed operations, the two
representations return the same words and end at the same value, which is 0 where the last operation is a `reset`. -/
def Obligations.BitArrayAndFlatRegistersAgree : Prop :=
  ∀ (s u : State) (m : Nat) (r : WordRegister) (ops : List RegisterOp),
    s.components[m]? = some (.register (.bitArray r)) →
    u.components[m]? = some (.register (.flat ⟨r.bits.length, r.val⟩)) → s.returned = u.returned →
    ops.all (RegisterOp.typed r.bits.length) = true →
    ∃ s' u' r', runOps (ops.map (RegisterOp.on m)) s = .next s' ∧ runOps (ops.map (RegisterOp.on m)) u = .next u' ∧
      s'.returned = u'.returned ∧ s'.components[m]? = some (.register (.bitArray r')) ∧
      r'.bits.length = r.bits.length ∧ u'.components[m]? = some (.register (.flat ⟨r.bits.length, r'.val⟩)) ∧
      (ops.getLast? = some .reset → r'.val = 0)

/-- A signed value goes through a register unharmed (rule R109): for every width and every integer of that width, the
pattern written and peeked back reads as the integer; -21846 at 16 bits is the pattern 0xAAAA. The reading of a pattern
as an integer is the standard formula, which the spec supplies from general knowledge (G1; log 10). -/
def Obligations.SignedValueRoundTrip : Prop :=
  signedPattern 16 (-21846) = 0xAAAA ∧ signedValue 16 0xAAAA = -21846 ∧
  ∀ (s : State) (m : Nat) (r : Register) (z : Int), s.components[m]? = some (.register r) → 1 ≤ r.width →
    -(2 ^ (r.width - 1)) ≤ z → z < 2 ^ (r.width - 1) →
    ∃ t u w, exec (.wrTick m (signedPattern r.width z) true) s = .next t ∧ exec (.wrPeek m) t = .next u ∧
      u.returned.head? = some ⟨m, w⟩ ∧ w = signedPattern r.width z ∧ signedValue r.width w = z

/-! ### MemoryNode -/

/-- The memory law (rule R42) for both representations: the words that `tick` and `peek` return, the view after them and
after `reset`, and that nothing else of the machine changes. Addresses are those in range, `0 .. 2^A - 1`. -/
def Obligations.MemoryLaw : Prop :=
  (∀ (s : State) (m : Nat) (r : Ram) (v a : Nat) (we : Bit), s.components[m]? = some (.memoryNode r) →
    (Component.memoryNode r).wf = true → v < 2 ^ r.width → a < 2 ^ r.addressWidth →
    (∃ r', exec (.ramTick m v a we) s = .next { s with
        components := s.components.set m (.memoryNode r'), returned := ⟨m, r.view a⟩ :: s.returned } ∧
      r'.width = r.width ∧ r'.sched = r.sched ∧ r'.view a = (if we then v else r.view a) ∧
      ∀ b, b ≠ a → r'.view b = r.view b) ∧
    exec (.ramPeek m a) s = .next { s with returned := ⟨m, r.view a⟩ :: s.returned } ∧
    (∃ r', exec (.ramReset m) s = .next { s with components := s.components.set m (.memoryNode r') } ∧
      r'.width = r.width ∧ r'.sched = r.sched ∧ ∀ b, r'.view b = 0)) ∧
  (∀ (s : State) (m : Nat) (r : FlatRam) (v a : Nat) (we : Bit), s.components[m]? = some (.flatRam r) →
    (Component.flatRam r).wf = true → v < 2 ^ r.width → a < 2 ^ r.addressWidth →
    (∃ r', exec (.framTick m v a we) s = .next { s with
        components := s.components.set m (.flatRam r'), returned := ⟨m, r.view a⟩ :: s.returned } ∧
      r'.width = r.width ∧ r'.addressWidth = r.addressWidth ∧ r'.portWidth = r.portWidth ∧
      r'.view a = (if we then v else r.view a) ∧ ∀ b, b ≠ a → r'.view b = r.view b) ∧
    exec (.framPeek m a) s = .next { s with returned := ⟨m, r.view a⟩ :: s.returned } ∧
    (∃ r', exec (.framReset m) s = .next { s with components := s.components.set m (.flatRam r') } ∧
      r'.width = r.width ∧ r'.addressWidth = r.addressWidth ∧ r'.portWidth = r.portWidth ∧ ∀ b, r'.view b = 0))

/-- `RAM.PEEK` and `RAM.RESET` (rules R127, R133): whole next states, flags (none) and encodings. The word peeked is what
the selected register of a leaf, or the selected child of an internal node, has at the address. -/
def Obligations.RamPeekAndReset : Prop :=
  ∀ (s : State) (m : Nat) (r : Ram) (v a : Nat) (load : Bit) (low : Fin 8), s.components[m]? = some (.memoryNode r) →
    (Component.memoryNode r).wf = true → v < 2 ^ r.width → a < 2 ^ r.addressWidth →
    exec (.ramPeek m a) s = .next { s with returned := ⟨m, r.view a⟩ :: s.returned } ∧
    (∀ regs reg, r.root = .leaf regs → regs[a]? = some reg → r.view a = reg.val) ∧
    (∀ S rest children c, r.sched = S :: rest → r.root = .internal children →
      children.toList[highSegment rest.sum a]? = some c → r.view a = c.view rest (lowSegment rest.sum a)) ∧
    exec (.ramReset m) s = .next { s with
      components := s.components.set m (.memoryNode ⟨r.width, r.sched, .zero r.width r.sched⟩) } ∧
    flagsWritten (.ramPeek m a) = [] ∧ flagsWritten (.ramReset m) = [] ∧
    decode (Component.memoryNode r).shape m (commandWord (Component.memoryNode r).shape load.toNat a v) =
      .ok (.ramPeek m a) ∧
    decode (Component.memoryNode r).shape m (commandWord (Component.memoryNode r).shape (8 + low) a v) =
      .ok (.ramReset m)

/-- `RAM.TICK` at a leaf (rule R126): the pre-tick value of `regs[address]` is returned, that register alone takes the
input where the enable is 1, and the other seven are unchanged. Also the flags (none) and the encoding `ctl = 001l`. -/
def Obligations.LeafTick : Prop :=
  ∀ (s : State) (m width : Nat) (regs : List WordRegister) (r : WordRegister) (v a : Nat) (we : Bit),
    s.components[m]? = some (.memoryNode ⟨width, [3], .leaf regs⟩) → regs.length = 8 →
    (∀ r' ∈ regs, r'.bits.length = width) → regs[a]? = some r → v < 2 ^ width →
    exec (.ramTick m v a we) s = .next { s with
      components := s.components.set m (.memoryNode ⟨width, [3], .leaf
        (if we then regs.set a ⟨(List.range width).map (fun i => ⟨⟨v.testBit i⟩⟩)⟩ else regs)⟩)
      returned := ⟨m, r.val⟩ :: s.returned } ∧
    flagsWritten (.ramTick m v a we) = [] ∧
    decode (.memoryNode width [3]) m (commandWord (.memoryNode width [3]) (2 + we.toNat) a v) = .ok (.ramTick m v a we)

/-- `RAM.TICK` at an internal node (rule R128): EVERY child is ticked with the same input and the same `low`, the child
`high` with the node's enable and every other with 0; the word returned is the child `high`'s output. -/
def Obligations.InternalNodeTicksEveryChild : Prop :=
  ∀ (S : Nat) (rest : List Nat) (children : Children) (v a : Nat) (we : Bit), children.toList.length = 2 ^ S →
    a < 2 ^ (S + rest.sum) →
    ∃ out children', MemoryNode.tick (S :: rest) v a we (.internal children) = (out, .internal children') ∧
      children'.toList.length = 2 ^ S ∧
      (∀ (k : Nat) (c : MemoryNode), children.toList[k]? = some c → children'.toList[k]? =
        some (c.tick rest v (a % 2 ^ rest.sum) (if k = a >>> rest.sum then we else false)).2) ∧
      (∀ c, children.toList[a >>> rest.sum]? = some c → out = (c.tick rest v (a % 2 ^ rest.sum) we).1)

/-- A tick changes exactly one word register of the tree, to the input, where the enable is 1, and none where it is 0
(rule R130); the register is the one the path formula of rule R132 names. The frame of a tree tick, register by
register. -/
def Obligations.TickChangesOneRegister : Prop :=
  ∀ (s : State) (m : Nat) (r : Ram) (v a : Nat) (we : Bit), s.components[m]? = some (.memoryNode r) →
    (Component.memoryNode r).wf = true → v < 2 ^ r.width → a < 2 ^ r.addressWidth →
    ∃ t root', exec (.ramTick m v a we) s = .next t ∧
      t.components = s.components.set m (.memoryNode { r with root := root' }) ∧
      (∀ path, path ≠ addressPath r.sched a → root'.registerAt path = r.root.registerAt path) ∧
      (∃ reg reg', r.root.registerAt (addressPath r.sched a) = some reg ∧
        root'.registerAt (addressPath r.sched a) = some reg' ∧ reg'.val = if we then v else reg.val)

/-- Every address in range has its register, at the end of its path, and the path's register holds the address's word
(rules R132, R41). -/
def Obligations.PathLeadsToTheAddressedRegister : Prop :=
  ∀ (r : Ram) (a : Nat), (Component.memoryNode r).wf = true → a < 2 ^ r.addressWidth →
    ∃ reg, r.root.registerAt (addressPath r.sched a) = some reg ∧ reg.bits.length = r.width ∧ reg.val = r.view a

/-- Ticking with enable 0 is holding (rule R131): no component changes at all, whatever the input and address; and the
normative tick, which ticks every child, gives the word and state of the short-circuited one. -/
def Obligations.DisabledTickHolds : Prop :=
  ∀ (s : State) (m : Nat) (r : Ram) (v a : Nat) (we : Bit), s.components[m]? = some (.memoryNode r) →
    (Component.memoryNode r).wf = true → v < 2 ^ r.width → a < 2 ^ r.addressWidth →
    exec (.ramTick m v a false) s = .next { s with returned := ⟨m, r.view a⟩ :: s.returned } ∧
    r.root.tick r.sched v a we = r.root.tickSelected r.sched v a we

/-- Read before write (rule R129): a tick returns the word a `peek` would have returned just before, whatever the enable
is, and a later `peek` or disabled tick at that address returns what the tick stored. -/
def Obligations.TreeReadsBeforeItWrites : Prop :=
  ∀ (s : State) (m : Nat) (r : Ram) (v x a : Nat) (we : Bit), s.components[m]? = some (.memoryNode r) →
    (Component.memoryNode r).wf = true → v < 2 ^ r.width → x < 2 ^ r.width → a < 2 ^ r.addressWidth →
    ∃ p t u u', exec (.ramPeek m a) s = .next p ∧ p.returned = ⟨m, r.view a⟩ :: s.returned ∧
      exec (.ramTick m v a we) s = .next t ∧ t.returned = ⟨m, r.view a⟩ :: s.returned ∧
      exec (.ramPeek m a) t = .next u ∧ u.returned = ⟨m, if we then v else r.view a⟩ :: t.returned ∧
      exec (.ramTick m x a false) t = .next u' ∧ u'.returned = ⟨m, if we then v else r.view a⟩ :: t.returned

/-- The fan-out schedule (rule R123): the seven capacities' rows, and that each shape of the machine's default schedule
is legal and has the address width asked for. For an address width outside the table the default is the spec's own
(D7; log 4). -/
def Obligations.FanOutSchedule : Prop :=
  Config.sched 3 = [3] ∧ Config.sched 6 = [3, 3] ∧ Config.sched 9 = [3, 3, 3] ∧ Config.sched 12 = [3, 3, 3, 3] ∧
  Config.sched 13 = [1, 3, 3, 3, 3] ∧ Config.sched 14 = [2, 3, 3, 3, 3] ∧ Config.sched 15 = [3, 3, 3, 3, 3] ∧
  ∀ a, 3 ≤ a → schedOk (Config.sched a) = true ∧ (Config.sched a).sum = a

/-- The path formulas of rule R139 for the fixed capacities, over all addresses in range. -/
def Obligations.PathFormulas : Prop :=
  ∀ a : Nat,
    (a < 8 → addressPath [3] a = [a &&& 7]) ∧
    (a < 64 → addressPath [3, 3] a = [a >>> 3, a &&& 7]) ∧
    (a < 512 → addressPath [3, 3, 3] a = [a >>> 6, (a >>> 3) &&& 7, a &&& 7]) ∧
    (a < 4096 → addressPath [3, 3, 3, 3] a = [a >>> 9, (a >>> 6) &&& 7, (a >>> 3) &&& 7, a &&& 7]) ∧
    (a < 8192 → addressPath [1, 3, 3, 3, 3] a =
      [a >>> 12, (a >>> 9) &&& 7, (a >>> 6) &&& 7, (a >>> 3) &&& 7, a &&& 7]) ∧
    (a < 16384 → addressPath [2, 3, 3, 3, 3] a =
      [a >>> 12, (a >>> 9) &&& 7, (a >>> 6) &&& 7, (a >>> 3) &&& 7, a &&& 7]) ∧
    (a < 32768 → addressPath [3, 3, 3, 3, 3] a =
      [a >>> 12, (a >>> 9) &&& 7, (a >>> 6) &&& 7, (a >>> 3) &&& 7, a &&& 7])

/-- A node of capacity `C = 2^A` holds exactly `C` word registers and `C * W` DelayCells (rule R26). -/
def Obligations.NodeHoldsCapacityRegisters : Prop :=
  ∀ (width : Nat) (sched : List Nat) (n : MemoryNode), n.wf width sched = true →
    (n.registers sched).length = 2 ^ sched.sum ∧ n.cellCount sched = 2 ^ sched.sum * width

/-- `RAM.RANDOMIZE` on a leaf with `W >= 3` (rules R135, R136): it completes, returns nothing, and leaves in register `k`
the `k`-th of eight distinct words; nothing else of the machine changes but the model's count of draws (log 3). -/
def Obligations.RandomizeOverwritesTheLeaf : Prop :=
  ∀ (s : State) (m : Nat) (r : Ram), s.components[m]? = some (.memoryNode r) →
    (Component.memoryNode r).wf = true → r.addressWidth = 3 → 3 ≤ r.width →
    ∃ (t : State) (r' : Ram) (draws : List Nat), exec (.ramRandomize m) s = .next t ∧ draws.length = 8 ∧
      draws.Nodup ∧
      (∀ w ∈ draws, w < 2 ^ r.width) ∧ t.components = s.components.set m (.memoryNode r') ∧ r'.width = r.width ∧
      r'.sched = r.sched ∧ (Component.memoryNode r').wf = true ∧ (∀ k < 8, some (r'.view k) = draws[k]?) ∧
      t.returned = s.returned ∧ t.trace = s.trace ∧ t.draws = s.draws + 1

/-- A claim about `randomize` for EVERY injective draw (rule R136): the meaning with the draw as an argument leaves
exactly that draw in the leaf, whatever the leaf held (the argument is the model's form of the free value, log 3). -/
def Obligations.RandomizeWithAnyDraw : Prop :=
  ∀ (s : State) (m : Nat) (r : Ram) (draws : List Nat), s.components[m]? = some (.memoryNode r) →
    (Component.memoryNode r).wf = true → r.addressWidth = 3 → 3 ≤ r.width → draws.length = 8 → draws.Nodup →
    (∀ w ∈ draws, w < 2 ^ r.width) →
    ∃ t, randomizeWith draws m s = .next t ∧ t.returned = s.returned ∧ ∀ k < 8, some (t.view m k) = draws[k]?

/-- `RANDOMIZE` where the source gives it no meaning is refused, by name (rules R67, R136, R137): on an internal node, on
a leaf with `W < 3`, on every other component. The names are the model's (log 11). -/
def Obligations.RandomizeRefusedElsewhere : Prop :=
  ∀ (s : State) (m : Nat) (c : Component), s.components[m]? = some c → c.wf = true →
    (c.shape.isMemoryNode = true → c.shape.isLeaf = false →
      exec (.ramRandomize m) s = .refused .reservedRandomize) ∧
    (c.shape.isLeaf = true → c.shape.inWidth < 3 → exec (.ramRandomize m) s = .refused .noDistinctDraw) ∧
    (c.shape.isMemoryNode = false → exec (.ramRandomize m) s = .refused .wrongComponent)

/-- The draw is injective (rule R136) for all free numbers: the words that come out of them are distinct words of `W`
bits. The construction is the model's (log 3). -/
def Obligations.DrawnWordsAreDistinct : Prop :=
  ∀ (width : Nat) (numbers : List Nat), numbers.length ≤ 2 ^ width →
    (drawWords width numbers []).length = numbers.length ∧ (drawWords width numbers []).Nodup ∧
    ∀ w ∈ drawWords width numbers [], w < 2 ^ width

/-- The draw is constrained by nothing but injectivity (rule R136): every list of distinct words of `W` bits comes out of
some free numbers, in the model's construction (log 3). -/
def Obligations.EveryInjectiveDrawComesOut : Prop :=
  ∀ (width : Nat) (draws : List Nat), draws.Nodup → (∀ w ∈ draws, w < 2 ^ width) →
    ∃ numbers : List Nat, drawWords width numbers [] = draws

/-! ### FlatRam -/

/-- `FRAM.TICK` (rules R151, R154): the word at `address mod C` is returned and, with the enable 1, replaced; every other
location, component and register of the machine is unchanged. Every address of the port completes, in range or not. Also
the flags (none) and the encoding `ctl = 001l`. The canonical form of the next memory, `mem'.wf`, is the model's own (log
6). -/
def Obligations.FlatRamTick : Prop :=
  ∀ (s : State) (m : Nat) (r : FlatRam) (v a : Nat) (we : Bit), s.components[m]? = some (.flatRam r) →
    (Component.flatRam r).wf = true → v < 2 ^ r.width → a < 2 ^ r.portWidth →
    ∃ mem', exec (.framTick m v a we) s = .next { s with
        components := s.components.set m (.flatRam { r with mem := mem' })
        returned := ⟨m, r.mem.read (a % 2 ^ r.addressWidth)⟩ :: s.returned } ∧
      mem'.wf = true ∧
      (∀ b, mem'.read b = if b = a % 2 ^ r.addressWidth ∧ we = true then v else r.mem.read b) ∧
      (we = false → mem' = r.mem) ∧
      flagsWritten (.framTick m v a we) = [] ∧
      decode (Component.flatRam r).shape m (commandWord (Component.flatRam r).shape (2 + we.toNat) a v) =
        .ok (.framTick m v a we)

/-- `FRAM.PEEK` and `FRAM.RESET` (rules R152, R153): whole next states, flags (none) and encodings. -/
def Obligations.FlatRamPeekAndReset : Prop :=
  ∀ (s : State) (m : Nat) (r : FlatRam) (v a : Nat) (load : Bit) (low : Fin 8),
    s.components[m]? = some (.flatRam r) → v < 2 ^ r.width → a < 2 ^ r.portWidth →
    exec (.framPeek m a) s = .next { s with returned := ⟨m, r.mem.read (a % 2 ^ r.addressWidth)⟩ :: s.returned } ∧
    exec (.framReset m) s = .next { s with components := s.components.set m (.flatRam { r with mem := [] }) } ∧
    (∀ b, Memory.read [] b = 0) ∧ flagsWritten (.framPeek m a) = [] ∧ flagsWritten (.framReset m) = [] ∧
    decode (Component.flatRam r).shape m (commandWord (Component.flatRam r).shape load.toNat a v) = .ok (.framPeek m a) ∧
    decode (Component.flatRam r).shape m (commandWord (Component.flatRam r).shape (8 + low) a v) = .ok (.framReset m)

/-- The wrap (rule R154): an address of the port and its low `A` bits are the same operation; in range the wrap is the
identity. -/
def Obligations.FlatAddressesWrap : Prop :=
  ∀ (s : State) (m : Nat) (r : FlatRam) (v a : Nat) (we : Bit), s.components[m]? = some (.flatRam r) →
    (Component.flatRam r).wf = true → a < 2 ^ r.portWidth →
    exec (.framTick m v a we) s = exec (.framTick m v (a % 2 ^ r.addressWidth) we) s ∧
    exec (.framPeek m a) s = exec (.framPeek m (a % 2 ^ r.addressWidth)) s ∧
    (a < 2 ^ r.addressWidth → r.location a = a)

/-- Tree / flat equivalence (rule R155): from equal views, over any sequence of typed operations, the tree and the FlatRam
return the same words and end with equal views, at every word width, capacity and schedule. The FlatRam is given any
address of its port and the tree that address `mod 2^A`, which is the address itself where the tree has it. After a
final `reset` both are all zero. -/
def Obligations.TreeAndFlatRamAgree : Prop :=
  ∀ (s u : State) (m : Nat) (r : Ram) (f : FlatRam) (ops : List RamOp),
    s.components[m]? = some (.memoryNode r) → u.components[m]? = some (.flatRam f) →
    (Component.memoryNode r).wf = true → (Component.flatRam f).wf = true → f.width = r.width →
    f.addressWidth = r.addressWidth → (∀ a < 2 ^ r.addressWidth, f.view a = r.view a) → s.returned = u.returned →
    ops.all (RamOp.typed r.width f.portWidth) = true →
    ∃ s' u' r' f', runOps (ops.map (fun o => (o.wrapped r.addressWidth).onTree m)) s = .next s' ∧
      runOps (ops.map (RamOp.onFlat m)) u = .next u' ∧ s'.returned = u'.returned ∧ s'.components[m]? = some (.memoryNode r') ∧
      u'.components[m]? = some (.flatRam f') ∧ (∀ a < 2 ^ r.addressWidth, f'.view a = r'.view a) ∧
      (ops.getLast? = some .reset → ∀ a < 2 ^ r.addressWidth, r'.view a = 0)

/-! ### Routing primitives and selectors -/

/-- The demultiplexer and the multiplexer (rules R166, R167). -/
def Obligations.RoutingPrimitives : Prop :=
  (∀ (F sel : Nat) (x : Bit), (dmux F x sel).length = F ∧
    ∀ k < F, (dmux F x sel)[k]? = some (if k = sel then x else false)) ∧
  (∀ (d : List Nat) (sel : Nat) (h : sel < d.length), mux d sel = d[sel]) ∧
  (∀ (d : List Nat) (sel i : Nat), sel < d.length →
    (mux d sel).testBit i = muxBit (d.map (fun w => w.testBit i)) sel)

/-- The selector's bit order (rules R125, R168): a list of address bits, most significant first, read as a number, is what
a primitive that reads its selector least significant bit first selects when it is given the reversed list; and the
number is the list's unsigned value at its length. -/
def Obligations.ReversedSelectorNamesTheIndex : Prop :=
  ∀ a : List Bit, lsbFirstIndex (reverseSelector a) = msbFirstIndex a ∧ msbFirstIndex a < 2 ^ a.length ∧
    ∀ j < a.length, a[j]? = some ((msbFirstIndex a).testBit (a.length - 1 - j))

/-! ### The whole machine -/

/-- Every operation is total over its typed domain (rules R44, R180), and runs only there: on a well-formed component an
operation answers a next state exactly where it is one of the component's operations with typed operands; elsewhere the
model refuses (log 11). -/
def Obligations.OperationsRunExactlyWhereTyped : Prop :=
  ∀ (s : State) (i : Instr) (c : Component), s.components[i.component]? = some c → c.wf = true →
    ((∃ t, exec i s = .next t) ↔ i.wf c.shape = true)

/-- An operand that is not a value of its type is refused by that name (rules R48, R105; 93_implementation_defined.md U4,
U12): the model's refusals (log 11). -/
def Obligations.UntypedOperandsAreRefused : Prop :=
  (∀ (s : State) (m : Nat) (r : Ram) (v a : Nat) (we : Bit), s.components[m]? = some (.memoryNode r) →
    2 ^ r.width ≤ v ∨ 2 ^ r.addressWidth ≤ a → exec (.ramTick m v a we) s = .refused .operandNotTyped) ∧
  (∀ (s : State) (m : Nat) (r : Ram) (a : Nat), s.components[m]? = some (.memoryNode r) → 2 ^ r.addressWidth ≤ a →
    exec (.ramPeek m a) s = .refused .operandNotTyped) ∧
  (∀ (s : State) (m : Nat) (r : Register) (v : Nat) (we : Bit), s.components[m]? = some (.register r) →
    2 ^ r.width ≤ v → exec (.wrTick m v we) s = .refused .operandNotTyped) ∧
  (∀ (s : State) (m : Nat) (r : FlatRam) (v a : Nat) (we : Bit), s.components[m]? = some (.flatRam r) →
    2 ^ r.width ≤ v ∨ 2 ^ r.portWidth ≤ a → exec (.framTick m v a we) s = .refused .operandNotTyped) ∧
  (∀ (s : State) (m : Nat) (r : FlatRam) (a : Nat), s.components[m]? = some (.flatRam r) → 2 ^ r.portWidth ≤ a →
    exec (.framPeek m a) s = .refused .operandNotTyped)

/-- The invariant is kept by every step, from every state that has it: every component keeps the contents its structure
allows (a FlatRam's memory its canonical form, a tree its shape, a flat register its width), and every word returned has
its component's width. -/
def Obligations.StepKeepsWellFormedness : Prop :=
  ∀ s t : State, s.wf = true → step s = .next t → t.wf = true

/-- No step creates, destroys or restructures a component (rules R21, R34): kinds, widths, schedules and ports stay. -/
def Obligations.StepKeepsTheStructure : Prop :=
  ∀ s t : State, step s = .next t → t.components.map Component.shape = s.components.map Component.shape

/-- The frame of every operation (rule R34: components share nothing): only the component it names changes; the trace
stays; at most one word is returned, by that component, and none by a `reset` or `randomize` (rule R60). The trace, the
words and the count of draws are the model's fields (logs 3, 7, 8). -/
def Obligations.OperationTouchesOneComponent : Prop :=
  ∀ (s t : State) (i : Instr), exec i s = .next t →
    (∀ m, m ≠ i.component → t.components[m]? = s.components[m]?) ∧ t.trace = s.trace ∧
    (t.returned = s.returned ∨ ∃ w, t.returned = ⟨i.component, w⟩ :: s.returned) ∧
    (i = .dcReset i.component ∨ i = .lbReset i.component ∨ i = .wrReset i.component ∨ i = .ramReset i.component ∨
      i = .framReset i.component ∨ i = .ramRandomize i.component → t.returned = s.returned) ∧
    (i ≠ .ramRandomize i.component → t.draws = s.draws)

/-- An operation that does not write a location leaves its word, over any sequence of operations (rules R50, R210): a
`peek`, a `tick` with enable 0, a `tick` at another address, an operation on another component. -/
def Obligations.OnlyWritersChangeAWord : Prop :=
  ∀ (s t : State) (m a : Nat) (c : Component) (ops : List Instr), s.wf = true → s.components[m]? = some c →
    a < c.locations → ops.all (fun i => !writes c.shape m a i) = true → runOps ops s = .next t →
    t.view m a = s.view m a

/-- Rule R50(a) for the two RAMs: a word written by a `tick`, and 0 after a `reset`, is what a `peek` and a `tick` at the
address return after any operations that do not write it. -/
def Obligations.ReadReturnsTheMostRecentWrite : Prop :=
  ∀ (s : State) (m v x a : Nat) (c : Component) (ops : List Instr) (t u : State), s.wf = true →
    s.components[m]? = some c → a < c.locations → v < 2 ^ c.shape.inWidth → x < 2 ^ c.shape.inWidth →
    ops.all (fun i => !writes c.shape m a i) = true →
    (c.shape.isMemoryNode = true →
      (exec (.ramTick m v a true) s = .next t → runOps ops t = .next u →
        (∃ p, exec (.ramPeek m a) u = .next p ∧ p.returned = ⟨m, v⟩ :: u.returned) ∧
        ∀ we, ∃ p, exec (.ramTick m x a we) u = .next p ∧ p.returned = ⟨m, v⟩ :: u.returned) ∧
      (exec (.ramReset m) s = .next t → runOps ops t = .next u →
        (∃ p, exec (.ramPeek m a) u = .next p ∧ p.returned = ⟨m, 0⟩ :: u.returned) ∧
        ∀ we, ∃ p, exec (.ramTick m x a we) u = .next p ∧ p.returned = ⟨m, 0⟩ :: u.returned)) ∧
    (c.shape.isFlatRam = true →
      (exec (.framTick m v a true) s = .next t → runOps ops t = .next u →
        (∃ p, exec (.framPeek m a) u = .next p ∧ p.returned = ⟨m, v⟩ :: u.returned) ∧
        ∀ we, ∃ p, exec (.framTick m x a we) u = .next p ∧ p.returned = ⟨m, v⟩ :: u.returned) ∧
      (exec (.framReset m) s = .next t → runOps ops t = .next u →
        (∃ p, exec (.framPeek m a) u = .next p ∧ p.returned = ⟨m, 0⟩ :: u.returned) ∧
        ∀ we, ∃ p, exec (.framTick m x a we) u = .next p ∧ p.returned = ⟨m, 0⟩ :: u.returned))

/-- Everything a host can observe is a function of the view (rule R41): two well-formed states with the same structures
and the same views answer any sequence of operations without `randomize` alike, with the same words returned and the
same views after. -/
def Obligations.SameViewsAreIndistinguishable : Prop :=
  ∀ (s u : State) (ops : List Instr), s.wf = true → u.wf = true →
    s.components.map Component.shape = u.components.map Component.shape →
    (∀ (m a : Nat) (c : Component), s.components[m]? = some c → a < c.locations → s.view m a = u.view m a) →
    s.returned = u.returned → (∀ i ∈ ops, i ≠ .ramRandomize i.component) →
    (∀ s', runOps ops s = .next s' → ∃ u', runOps ops u = .next u' ∧ s'.returned = u'.returned ∧
      ∀ m a, s'.view m a = u'.view m a)

/-- With the enable 0 the input has no effect on the result or on the next state of any tick (rule R62). -/
def Obligations.DisabledInputDoesNotMatter : Prop :=
  (∀ (s : State) (m : Nat) (x y : Bit), exec (.lbTick m x false) s = exec (.lbTick m y false) s) ∧
  ∀ (s : State) (m v w a : Nat) (c : Component), s.components[m]? = some c → c.wf = true →
    v < 2 ^ c.shape.inWidth → w < 2 ^ c.shape.inWidth →
    exec (.wrTick m v false) s = exec (.wrTick m w false) s ∧
    exec (.ramTick m v a false) s = exec (.ramTick m w a false) s ∧
    exec (.framTick m v a false) s = exec (.framTick m w a false) s

/-- Reads have no side effect (rule R46): wherever they complete, a `peek` and a `tick` with enable 0 leave every stored
value unchanged and return one and the same word, so that repeating them gives identical results. -/
def Obligations.ReadsHaveNoSideEffect : Prop :=
  ∀ (s : State) (m v a : Nat) (c : Component), s.components[m]? = some c → c.wf = true → v < 2 ^ c.shape.inWidth →
    (c.shape.isMemoryNode = true → a < 2 ^ c.shape.addressFieldWidth → ∃ t, exec (.ramPeek m a) s = .next t ∧
      exec (.ramTick m v a false) s = .next t ∧ t = { s with returned := ⟨m, c.view a⟩ :: s.returned }) ∧
    (c.shape.isFlatRam = true → a < 2 ^ c.shape.addressFieldWidth → ∃ t, exec (.framPeek m a) s = .next t ∧
      exec (.framTick m v a false) s = .next t ∧
      t = { s with returned := ⟨m, c.view (locationOf c.shape a)⟩ :: s.returned }) ∧
    (c.shape.isRegister = true → ∃ t, exec (.wrPeek m) s = .next t ∧ exec (.wrTick m v false) s = .next t ∧
      t = { s with returned := ⟨m, c.view a⟩ :: s.returned }) ∧
    (c.shape = .loadableBit → ∃ t, exec (.lbPeek m) s = .next t ∧ exec (.lbTick m (v.testBit 0) false) s = .next t ∧
      t = { s with returned := ⟨m, c.view a⟩ :: s.returned }) ∧
    (c.shape = .delayCell → exec (.dcPeek m) s = .next { s with returned := ⟨m, c.view a⟩ :: s.returned })

/-! ### Pins and the trace's words -/

/-- The pins and the operations (rules R63, R64, R184): the command word with the pins' signals decodes to the operation
the pins ask for, and that operation is what the component does; `rst` wins over a coinciding edge; an edge commits the
next state of the component's own tick, and a sample changes nothing; both return `out` as it was before; after a reset
`out` is 0. The pins are the spec's own choice (D1, D2). -/
def Obligations.PinsAskForTheOperation : Prop :=
  ∀ (s : State) (m : Nat) (c : Component) (p : Pins), s.components[m]? = some c → c.wf = true →
    p.input < 2 ^ c.shape.inWidth → p.address < 2 ^ c.shape.addressFieldWidth →
    decode c.shape m (p.commandWord c.shape) = .ok (p.operation m c.shape) ∧
    (p.rst = true → s.drivePins m p =
      .next { s with components := s.components.set m (Component.created c.shape) }) ∧
    s.drivePins m p = exec (p.operation m c.shape) s ∧
    (p.rst = false → s.drivePins m p = .next { s with
      components := s.components.set m (if p.edge then c.afterEdge p else c)
      returned := ⟨m, c.out p.address⟩ :: s.returned }) ∧
    (∀ a, (Component.created c.shape).out a = 0)

/-- The pseudo-operations (rule R71, the spec's own choice D11): `read a` and `peek a` return the same word and leave the
same state; `write` and `swap` are one operation, which stores the word and returns the old one; `idle` stores nothing;
each is one tick, a `peek` none. On both RAMs, and on a FlatRam at every address of its port, which wraps. -/
def Obligations.PseudoOperations : Prop :=
  (∀ (m a : Nat) (p : Pseudo), tickCount (p.onMemoryNode m) = 1 ∧ tickCount (p.onFlatRam m) = 1 ∧
    tickCount (.ramPeek m a) = 0 ∧ tickCount (.framPeek m a) = 0) ∧
  (∀ (s : State) (m : Nat) (r : Ram) (v a : Nat), s.components[m]? = some (.memoryNode r) →
    (Component.memoryNode r).wf = true → v < 2 ^ r.width → a < 2 ^ r.addressWidth →
    exec ((Pseudo.read a).onMemoryNode m) s = exec (.ramPeek m a) s ∧
    (∃ t, exec ((Pseudo.write v a).onMemoryNode m) s = .next t ∧ exec ((Pseudo.swap v a).onMemoryNode m) s = .next t ∧
      t.returned = ⟨m, r.view a⟩ :: s.returned ∧ t.view m a = v) ∧
    exec (Pseudo.idle.onMemoryNode m) s = .next { s with returned := ⟨m, r.view 0⟩ :: s.returned }) ∧
  (∀ (s : State) (m : Nat) (r : FlatRam) (v a : Nat), s.components[m]? = some (.flatRam r) →
    (Component.flatRam r).wf = true → v < 2 ^ r.width → a < 2 ^ r.portWidth →
    exec ((Pseudo.read a).onFlatRam m) s = exec (.framPeek m a) s ∧
    (∃ t, exec ((Pseudo.write v a).onFlatRam m) s = .next t ∧ exec ((Pseudo.swap v a).onFlatRam m) s = .next t ∧
      t.returned = ⟨m, r.view (r.location a)⟩ :: s.returned ∧ t.view m (r.location a) = v) ∧
    exec (Pseudo.idle.onFlatRam m) s = .next { s with returned := ⟨m, r.view 0⟩ :: s.returned })
end

