-- ==== Sys2Proof/Laws/Decode.lean ====
section
/-! SUPPORT. The fields of a command word that is put together, and its width (rule R65). -/

namespace Sys2Proof

theorem ctlField_commandWord {sh : Shape} {ctl a v : Nat} (hc : ctl < 16) (ha : a < 2 ^ sh.addressFieldWidth)
    (hv : v < 2 ^ sh.inWidth) : ctlField sh (commandWord sh ctl a v) = ctl := by
  have h1 : commandWord sh ctl a v / 2 ^ sh.inWidth = ctl * 2 ^ sh.addressFieldWidth + a := by
    rw [commandWord, Nat.add_comm, Nat.add_mul_div_right _ _ (Nat.two_pow_pos _), Nat.div_eq_of_lt hv, Nat.zero_add]
  have h2 : (ctl * 2 ^ sh.addressFieldWidth + a) / 2 ^ sh.addressFieldWidth = ctl := by
    rw [Nat.add_comm, Nat.add_mul_div_right _ _ (Nat.two_pow_pos _), Nat.div_eq_of_lt ha, Nat.zero_add]
  rw [ctlField, bitField, Nat.shiftRight_eq_div_pow, Nat.pow_add, ← Nat.div_div_eq_div_mul, h1, h2]
  exact Nat.mod_eq_of_lt hc

theorem addressField_commandWord {sh : Shape} {ctl a v : Nat} (ha : a < 2 ^ sh.addressFieldWidth)
    (hv : v < 2 ^ sh.inWidth) : addressField sh (commandWord sh ctl a v) = a := by
  have h1 : commandWord sh ctl a v / 2 ^ sh.inWidth = ctl * 2 ^ sh.addressFieldWidth + a := by
    rw [commandWord, Nat.add_comm, Nat.add_mul_div_right _ _ (Nat.two_pow_pos _), Nat.div_eq_of_lt hv, Nat.zero_add]
  rw [addressField, bitField, Nat.shiftRight_eq_div_pow, h1, Nat.add_comm, Nat.add_mul_mod_self_right,
    Nat.mod_eq_of_lt ha]

theorem inField_commandWord {sh : Shape} {ctl a v : Nat} (hv : v < 2 ^ sh.inWidth) :
    inField sh (commandWord sh ctl a v) = v := by
  rw [inField, bitField, Nat.shiftRight_zero, commandWord, Nat.add_comm, Nat.add_mul_mod_self_right,
    Nat.mod_eq_of_lt hv]

/-- A command word has `4 + AWf + Wf` bits (rule R65). -/
theorem commandWord_lt {sh : Shape} {ctl a v : Nat} (hc : ctl < 16) (ha : a < 2 ^ sh.addressFieldWidth)
    (hv : v < 2 ^ sh.inWidth) : commandWord sh ctl a v < 2 ^ sh.commandWidth := by
  have h1 : ctl * 2 ^ sh.addressFieldWidth + a < 2 ^ (4 + sh.addressFieldWidth) := by
    calc ctl * 2 ^ sh.addressFieldWidth + a < ctl * 2 ^ sh.addressFieldWidth + 2 ^ sh.addressFieldWidth := by omega
      _ = (ctl + 1) * 2 ^ sh.addressFieldWidth := by rw [Nat.succ_mul]
      _ ≤ 16 * 2 ^ sh.addressFieldWidth := Nat.mul_le_mul_right _ (by omega)
      _ = 2 ^ (4 + sh.addressFieldWidth) := by rw [Nat.pow_add]
  rw [commandWord, Shape.commandWidth, Nat.pow_add]
  calc (ctl * 2 ^ sh.addressFieldWidth + a) * 2 ^ sh.inWidth + v
      < (ctl * 2 ^ sh.addressFieldWidth + a) * 2 ^ sh.inWidth + 2 ^ sh.inWidth := by omega
    _ = (ctl * 2 ^ sh.addressFieldWidth + a + 1) * 2 ^ sh.inWidth := by rw [Nat.succ_mul]
    _ ≤ 2 ^ (4 + sh.addressFieldWidth) * 2 ^ sh.inWidth := Nat.mul_le_mul_right _ (by omega)

/-- Decoding a command word that is put together gives the operation of its class, load bit and operand fields. -/
theorem decode_commandWord {sh : Shape} {m ctl a v : Nat} (hc : ctl < 16) (ha : a < 2 ^ sh.addressFieldWidth)
    (hv : v < 2 ^ sh.inWidth) :
    decode sh m (commandWord sh ctl a v) = operation sh m (ctlClass ctl) (ctl.testBit 0) a v := by
  rw [decode, if_pos (commandWord_lt hc ha hv), ctlField_commandWord hc ha hv, addressField_commandWord ha hv,
    inField_commandWord hv]

@[simp] theorem ctlClass_tickCtl (we : Bit) : ctlClass (tickCtl we) = .tick := by cases we <;> decide
@[simp] theorem tickCtl_load (we : Bit) : (tickCtl we).testBit 0 = we := by cases we <;> decide
theorem tickCtl_lt (we : Bit) : tickCtl we < 16 := by cases we <;> decide

end Sys2Proof
end

