-- ==== Sys2Proof/Laws/Memory.lean ====
section
/-! SUPPORT. The memory of a FlatRam: reads after writes, and the canonical form. -/

namespace Sys2Proof.Machine

@[simp] theorem Memory.read_nil (a : Nat) : Memory.read [] a = 0 := rfl

/-- Below the first listed address everything reads 0. -/
theorem Memory.read_of_below {m : Memory} {a : Nat} (h : m.all (fun p => decide (a < p.1)) = true) :
    Memory.read m a = 0 := by
  induction m with
  | nil => rfl
  | cons p m ih =>
    obtain ⟨b, w⟩ := p
    simp only [List.all_cons, Bool.and_eq_true, decide_eq_true_eq] at h
    simp only [Memory.read, if_neg (Nat.ne_of_lt h.1)]
    exact ih h.2

/-- What a canonical memory's first entry says of the rest. -/
theorem Memory.wf_cons {a : Nat} {v : Nat} {m : Memory} :
    Memory.wf ((a, v) :: m) = true ↔ v ≠ 0 ∧ m.all (fun p => decide (a < p.1)) = true ∧ Memory.wf m = true := by
  simp [Memory.wf, and_assoc]

/-- A read after a write to the same location gives the word written. -/
theorem Memory.read_write_same {m : Memory} (h : m.wf = true) (a : Nat) (v : Nat) :
    (m.write a v).read a = v := by
  induction m with
  | nil => by_cases hv : v = 0 <;> simp [Memory.write, Memory.read, hv]
  | cons p m ih =>
    obtain ⟨b, w⟩ := p
    obtain ⟨hw, hb, hm⟩ := Memory.wf_cons.mp h
    unfold Memory.write
    split
    · split
      · subst_vars
        refine Memory.read_of_below ?_
        simp only [List.all_cons, Bool.and_eq_true, decide_eq_true_eq]
        refine ⟨‹_›, List.all_eq_true.mpr fun q hq => ?_⟩
        have := List.all_eq_true.mp hb q hq
        simp only [decide_eq_true_eq] at this ⊢
        omega
      · simp [Memory.read]
    · split
      · split
        · subst_vars; exact Memory.read_of_below hb
        · simp [Memory.read]
      · simp only [Memory.read, if_neg ‹¬a = b›]
        exact ih hm

/-- A write leaves every other location alone. -/
theorem Memory.read_write_other {a b : Nat} (hne : b ≠ a) (m : Memory) (v : Nat) :
    (m.write a v).read b = m.read b := by
  induction m with
  | nil => by_cases hv : v = 0 <;> simp [Memory.write, Memory.read, hv, hne]
  | cons p m ih =>
    obtain ⟨c, w⟩ := p
    unfold Memory.write
    split
    · split <;> simp [Memory.read, hne]
    · split
      · split <;> simp_all [Memory.read]
      · simp only [Memory.read, ih]

/-- A property of every entry is kept by a write that meets it. -/
theorem Memory.all_write {p : Nat × Nat → Bool} {m : Memory} {a : Nat} {v : Nat} (h : m.all p = true)
    (hv : v ≠ 0 → p (a, v) = true) : (m.write a v).all p = true := by
  induction m with
  | nil => by_cases h0 : v = 0 <;> simp [Memory.write, h0, hv]
  | cons q m ih =>
    obtain ⟨b, w⟩ := q
    simp only [List.all_cons, Bool.and_eq_true] at h
    unfold Memory.write
    split
    · split
      · simp [h.1, h.2]
      · simp [h.1, h.2, hv ‹_›]
    · split
      · split
        · exact h.2
        · simp [h.2, hv ‹_›]
      · simp [h.1, ih h.2]

/-- Every write keeps the canonical form. -/
theorem Memory.wf_write {m : Memory} (h : m.wf = true) (a : Nat) (v : Nat) : (m.write a v).wf = true := by
  induction m with
  | nil => by_cases hv : v = 0 <;> simp [Memory.write, Memory.wf, hv]
  | cons p m ih =>
    obtain ⟨b, w⟩ := p
    obtain ⟨hw, hb, hm⟩ := Memory.wf_cons.mp h
    unfold Memory.write
    split
    · split
      · exact h
      · refine Memory.wf_cons.mpr ⟨‹_›, ?_, h⟩
        simp only [List.all_cons, Bool.and_eq_true, decide_eq_true_eq]
        refine ⟨‹_›, List.all_eq_true.mpr fun q hq => ?_⟩
        have := List.all_eq_true.mp hb q hq
        simp only [decide_eq_true_eq] at this ⊢
        omega
    · split
      · split
        · exact hm
        · subst_vars; exact Memory.wf_cons.mpr ⟨‹_›, hb, hm⟩
      · refine Memory.wf_cons.mpr ⟨hw, Memory.all_write hb fun _ => ?_, ih hm⟩
        simp only [decide_eq_true_eq]
        omega

/-- Every write of a typed word at a location of the RAM keeps the entries typed. -/
theorem Memory.within_write {width capacity : Nat} {m : Memory} {a : Nat} {v : Nat}
    (h : m.within width capacity = true) (ha : a < capacity) (hv : v < 2 ^ width) :
    (m.write a v).within width capacity = true :=
  Memory.all_write h fun _ => by simp [ha, hv]

/-- Every location of a typed memory reads as a word of the width. -/
theorem Memory.read_lt {width capacity : Nat} {m : Memory} (h : m.within width capacity = true) (a : Nat) :
    m.read a < 2 ^ width := by
  induction m with
  | nil => simp [Memory.read]
  | cons p m ih =>
    obtain ⟨b, w⟩ := p
    simp only [Memory.within, List.all_cons, Bool.and_eq_true, decide_eq_true_eq, Word.fits_iff] at h
    unfold Memory.read
    split
    · exact h.1.2
    · exact ih h.2

/-- Two canonical memories that read the same everywhere are the same. -/
theorem Memory.ext_read {m n : Memory} (hm : m.wf = true) (hn : n.wf = true) (h : ∀ a, m.read a = n.read a) :
    m = n := by
  induction m generalizing n with
  | nil =>
    cases n with
    | nil => rfl
    | cons q n =>
      obtain ⟨b, w⟩ := q
      exact absurd (by simpa [Memory.read] using (h b).symm) (Memory.wf_cons.mp hn).1
  | cons p m ih =>
    obtain ⟨a, v⟩ := p
    obtain ⟨hv, hma, hmw⟩ := Memory.wf_cons.mp hm
    cases n with
    | nil => exact absurd (by simpa [Memory.read] using h a) hv
    | cons q n =>
      obtain ⟨b, w⟩ := q
      obtain ⟨hw, hnb, hnw⟩ := Memory.wf_cons.mp hn
      have hab : a = b := by
        rcases Nat.lt_trichotomy a b with hlt | heq | hgt
        · have := h a
          rw [Memory.read_of_below (m := (b, w) :: n)] at this
          · exact absurd (by simpa [Memory.read] using this) hv
          · simp only [List.all_cons, Bool.and_eq_true, decide_eq_true_eq]
            refine ⟨hlt, List.all_eq_true.mpr fun q hq => ?_⟩
            have := List.all_eq_true.mp hnb q hq
            simp only [decide_eq_true_eq] at this ⊢
            omega
        · exact heq
        · have := h b
          rw [Memory.read_of_below (m := (a, v) :: m)] at this
          · exact absurd (by simpa [Memory.read] using this.symm) hw
          · simp only [List.all_cons, Bool.and_eq_true, decide_eq_true_eq]
            refine ⟨hgt, List.all_eq_true.mpr fun q hq => ?_⟩
            have := List.all_eq_true.mp hma q hq
            simp only [decide_eq_true_eq] at this ⊢
            omega
      subst hab
      have hvw : v = w := by simpa [Memory.read] using h a
      subst hvw
      rw [ih hmw hnw fun c => ?_]
      by_cases hc : c = a
      · subst hc; rw [Memory.read_of_below hma, Memory.read_of_below hnb]
      · simpa [Memory.read, hc] using h c

/-- The reset memory has the canonical form. -/
@[simp] theorem Memory.wf_nil : Memory.wf [] = true := rfl
@[simp] theorem Memory.within_nil (width capacity : Nat) : Memory.within width capacity [] = true := rfl

theorem FlatRam.location_lt (r : FlatRam) (a : Nat) : r.location a < r.capacity :=
  Nat.mod_lt _ (Nat.two_pow_pos _)

/-- For an address in range the wrap is the identity (rule R154). -/
theorem FlatRam.location_of_lt {r : FlatRam} {a : Nat} (h : a < r.capacity) : r.location a = a := Nat.mod_eq_of_lt h

/-- A tick of a FlatRam returns the word that was there (rule R151). -/
@[simp] theorem FlatRam.tick_fst (v : Nat) (a : Nat) (we : Bit) (r : FlatRam) :
    (r.tick v a we).1 = r.view (r.location a) := rfl
@[simp] theorem FlatRam.tick_width (v : Nat) (a : Nat) (we : Bit) (r : FlatRam) :
    (r.tick v a we).2.width = r.width := by cases we <;> rfl
@[simp] theorem FlatRam.tick_addressWidth (v : Nat) (a : Nat) (we : Bit) (r : FlatRam) :
    (r.tick v a we).2.addressWidth = r.addressWidth := by cases we <;> rfl
@[simp] theorem FlatRam.tick_portWidth (v : Nat) (a : Nat) (we : Bit) (r : FlatRam) :
    (r.tick v a we).2.portWidth = r.portWidth := by cases we <;> rfl

end Sys2Proof.Machine
end

