-- ==== Sys2Proof/Laws/Operands.lean ====
section
/-! SUPPORT. Bits and words, the split of an address, the routing primitives. -/

namespace Sys2Proof.Machine

@[simp] theorem wordBits_length (n : Nat) (v : Nat) : (wordBits n v).length = n := by simp [wordBits]

@[simp] theorem wordBits_zero (v : Nat) : wordBits 0 v = [] := rfl

theorem wordBits_succ (n : Nat) (v : Nat) : wordBits (n + 1) v = v.testBit 0 :: wordBits n (v / 2) := by
  simp [wordBits, List.range_succ_eq_map, Nat.testBit_succ, Function.comp_def]

/-- Packing the bits of a word gives its low `n` bits back (bit order is preserved, rule R43). -/
theorem packBits_wordBits (n : Nat) (v : Nat) : packBits (wordBits n v) = v % 2 ^ n := by
  induction n generalizing v with
  | zero => simp [packBits, Nat.mod_one]
  | succ n ih =>
    rw [wordBits_succ, packBits, ih, Nat.pow_succ', Nat.mod_mul, Nat.testBit_zero]
    rcases Nat.mod_two_eq_zero_or_one v with h | h <;> simp [h]

theorem packBits_wordBits_of_lt {n : Nat} {v : Nat} (h : v < 2 ^ n) : packBits (wordBits n v) = v := by
  rw [packBits_wordBits, Nat.mod_eq_of_lt h]

/-- A packed word has the width of its bits. -/
theorem packBits_lt (bs : List Bit) : packBits bs < 2 ^ bs.length := by
  induction bs with
  | nil => simp [packBits]
  | cons b bs ih =>
    have := b.toNat_le
    simp only [packBits, List.length_cons, Nat.pow_succ]
    omega

/-- The word of a list of bits names the bits. -/
theorem wordBits_packBits (bs : List Bit) : wordBits bs.length (packBits bs) = bs := by
  induction bs with
  | nil => rfl
  | cons b bs ih =>
    have h2 : (b.toNat + 2 * packBits bs) / 2 = packBits bs := by have := b.toNat_le; cases b <;> (simp; try omega)
    rw [List.length_cons, packBits, wordBits_succ, h2, ih]
    cases b <;> simp [Nat.testBit_zero]

/-- Two lists of bits of one length with one word are one list. -/
theorem packBits_injective {as bs : List Bit} (hl : as.length = bs.length) (h : packBits as = packBits bs) :
    as = bs := by
  rw [← wordBits_packBits as, ← wordBits_packBits bs, hl, h]

@[simp] theorem packBits_replicate_false (n : Nat) : packBits (List.replicate n false) = 0 := by
  induction n with
  | zero => rfl
  | succ n ih => simp [List.replicate_succ, packBits, ih]

/-- `address = high * 2^(A-S) + low` (rule R124). -/
theorem high_low (lowWidth a : Nat) : highSegment lowWidth a * 2 ^ lowWidth + lowSegment lowWidth a = a := by
  simp only [highSegment, lowSegment, Nat.shiftRight_eq_div_pow]
  exact Nat.div_add_mod' a _

theorem lowSegment_lt (lowWidth a : Nat) : lowSegment lowWidth a < 2 ^ lowWidth :=
  Nat.mod_lt _ (Nat.two_pow_pos _)

/-- An address of `S + lowWidth` bits has `high` in `0 .. 2^S - 1` (rule R124). -/
theorem highSegment_lt {s lowWidth a : Nat} (h : a < 2 ^ (s + lowWidth)) : highSegment lowWidth a < 2 ^ s := by
  rw [highSegment, Nat.shiftRight_eq_div_pow, Nat.div_lt_iff_lt_mul (Nat.two_pow_pos _), ← Nat.pow_add]
  exact h

/-- Two addresses with the same segments are one address. -/
theorem eq_of_segments {lowWidth a b : Nat} (hh : highSegment lowWidth a = highSegment lowWidth b)
    (hl : lowSegment lowWidth a = lowSegment lowWidth b) : a = b := by
  rw [← high_low lowWidth a, ← high_low lowWidth b, hh, hl]

@[simp] theorem dmux_length (ways : Nat) (x : Bit) (sel : Nat) : (dmux ways x sel).length = ways := by simp [dmux]

/-- The demultiplexer's output `k` (rule R166). -/
theorem dmux_getElem? {ways k : Nat} (h : k < ways) (x : Bit) (sel : Nat) :
    (dmux ways x sel)[k]? = some (if k = sel then x else false) := by
  simp [dmux, h]

/-- With an inactive input every output is inactive (rule R166). -/
theorem dmux_false (ways sel : Nat) : dmux ways false sel = List.replicate ways false := by
  simp [dmux, List.map_const']

end Sys2Proof.Machine
end

