-- ==== Sys2Proof/Laws/Registers.lean ====
section
/-! SUPPORT. The cell and register laws: what each component operation returns and stores. -/

namespace Sys2Proof.Machine

@[simp] theorem DelayCell.tick_fst (x : Bit) (c : DelayCell) : (c.tick x).1 = c.q := rfl
@[simp] theorem DelayCell.tick_snd (x : Bit) (c : DelayCell) : (c.tick x).2 = ⟨x⟩ := rfl

/-- Rule R90, expanded: the stored bit is returned, and replaced where the enable is 1. -/
theorem LoadableBit.tick_eq (x we : Bit) (b : LoadableBit) :
    b.tick x we = (b.cell.q, ⟨⟨if we then x else b.cell.q⟩⟩) := rfl

/-- The bit-array register of a word. -/
def WordRegister.ofWord (width v : Nat) : WordRegister := ⟨(wordBits width v).map (fun x => ⟨⟨x⟩⟩)⟩

@[simp] theorem WordRegister.ofWord_length (width v : Nat) : (WordRegister.ofWord width v).bits.length = width := by
  simp [WordRegister.ofWord]

/-- A written word is the register's value (rule R100). -/
theorem WordRegister.ofWord_val {width v : Nat} (h : v < 2 ^ width) : (WordRegister.ofWord width v).val = v := by
  simp [WordRegister.ofWord, WordRegister.val, Function.comp_def, packBits_wordBits_of_lt h]

/-- A register is determined by its width and its value (rule R24). -/
theorem WordRegister.ofWord_of_val (r : WordRegister) : WordRegister.ofWord r.bits.length r.val = r := by
  have := wordBits_packBits (r.bits.map (fun b => b.cell.q))
  rw [List.length_map] at this
  simp [WordRegister.ofWord, WordRegister.val, this, Function.comp_def]

theorem WordRegister.eq_of_val {r t : WordRegister} (hl : r.bits.length = t.bits.length) (h : r.val = t.val) :
    r = t := by
  rw [← r.ofWord_of_val, ← t.ofWord_of_val, hl, h]

theorem WordRegister.val_lt (r : WordRegister) : r.val < 2 ^ r.bits.length := by
  simpa [WordRegister.val] using packBits_lt (r.bits.map (fun b => b.cell.q))

/-- Rule R100, expanded: the value is returned, and all bits are replaced where the enable is 1, none elsewhere. -/
theorem WordRegister.tick_eq (v : Nat) (we : Bit) (r : WordRegister) :
    r.tick v we = (r.val, if we then .ofWord r.bits.length v else r) := by
  obtain ⟨bits⟩ := r
  have hl : bits.length = (wordBits bits.length v).length := by simp
  generalize hw : wordBits bits.length v = w at hl
  simp only [WordRegister.tick, WordRegister.val, WordRegister.ofWord, LoadableBit.tick_eq, hw, List.map_zipWith]
  have h1 : List.zipWith (fun (b : LoadableBit) (_ : Bit) => b.cell.q) bits w = bits.map (fun b => b.cell.q) := by
    clear hw; induction bits generalizing w with
    | nil => simp
    | cons b bits ih => cases w with
      | nil => simp at hl
      | cons x w => simp only [List.length_cons, Nat.add_right_cancel_iff] at hl; simp [ih w hl]
  have h2 : List.zipWith (fun (b : LoadableBit) (x : Bit) => (⟨⟨if we then x else b.cell.q⟩⟩ : LoadableBit)) bits w =
      if we then w.map (fun x => ⟨⟨x⟩⟩) else bits := by
    clear hw h1; induction bits generalizing w with
    | nil => cases w <;> simp_all
    | cons b bits ih => cases w with
      | nil => simp at hl
      | cons x w =>
        simp only [List.length_cons, Nat.add_right_cancel_iff] at hl
        simp only [List.zipWith_cons_cons, ih w hl]
        cases we <;> simp
  rw [h1, h2]
  cases we <;> simp

theorem WordRegister.peek_eq_val (r : WordRegister) : r.peek = r.val := rfl

/-- A reset register is a created one (rules R102, R202). -/
theorem WordRegister.reset_eq_zero (r : WordRegister) : r.reset = .zero r.bits.length := by
  have : LoadableBit.reset = fun _ => LoadableBit.zero := rfl
  rw [WordRegister.reset, WordRegister.zero, this, List.map_const']

@[simp] theorem WordRegister.zero_val (width : Nat) : (WordRegister.zero width).val = 0 := by
  simp [WordRegister.zero, WordRegister.val, LoadableBit.zero, DelayCell.zero]

@[simp] theorem WordRegister.zero_length (width : Nat) : (WordRegister.zero width).bits.length = width := by
  simp [WordRegister.zero]

@[simp] theorem WordRegister.tick_length (v : Nat) (we : Bit) (r : WordRegister) :
    (r.tick v we).2.bits.length = r.bits.length := by
  rw [WordRegister.tick_eq]; cases we <;> simp

/-- A tick of a register of either representation (rules R100, R105): the value is returned whatever the enable is. -/
theorem Register.tick_fst (v : Nat) (we : Bit) (r : Register) : (r.tick v we).1 = r.val := by
  cases r with
  | bitArray r => simp [Register.tick, Register.val, WordRegister.tick_eq]
  | flat r => rfl

/-- After it the value is the input where the enable is 1, the old one elsewhere (rules R100, R105). -/
theorem Register.tick_val {v : Nat} {r : Register} (h : v < 2 ^ r.width) (we : Bit) :
    (r.tick v we).2.val = if we then v else r.val := by
  cases r with
  | bitArray r => cases we <;> simp_all [Register.tick, Register.val, Register.width, WordRegister.tick_eq, WordRegister.ofWord_val]
  | flat r => cases we <;> rfl

@[simp] theorem Register.tick_width (v : Nat) (we : Bit) (r : Register) : (r.tick v we).2.width = r.width := by
  cases r with
  | bitArray r => simp [Register.tick, Register.width]
  | flat r => cases we <;> rfl

theorem Register.peek_eq_val (r : Register) : r.peek = r.val := by cases r <;> rfl

/-- Ticking with enable 0 is holding (rule R93). -/
theorem Register.tick_hold (v : Nat) (r : Register) : (r.tick v false).2 = r := by
  cases r with
  | bitArray r => simp [Register.tick, WordRegister.tick_eq]
  | flat r => rfl

@[simp] theorem Register.reset_width (r : Register) : r.reset.width = r.width := by
  cases r with
  | bitArray r => simp [Register.reset, Register.width, WordRegister.reset_eq_zero]
  | flat r => rfl

@[simp] theorem Register.reset_val (r : Register) : r.reset.val = 0 := by
  cases r with
  | bitArray r => simp [Register.reset, Register.val, WordRegister.reset_eq_zero]
  | flat r => rfl

end Sys2Proof.Machine
end

