-- ==== Sys2Proof/Laws/Node.lean ====
section
/-! SUPPORT. The tree laws: what `tick`, `peek` and `reset` do to a node that has its schedule's shape (rules R129 to
R133), by induction on the schedule. -/

namespace Sys2Proof.Machine

@[simp] theorem Children.toList_ofList (ns : List MemoryNode) : (Children.ofList ns).toList = ns := by
  induction ns with
  | nil => rfl
  | cons n ns ih => simp [Children.ofList, Children.toList, ih]

@[simp] theorem Children.ofList_toList (cs : Children) : Children.ofList cs.toList = cs := by
  cases cs with
  | nil => rfl
  | cons n cs => simp [Children.toList, Children.ofList, Children.ofList_toList cs]

/-- The nodes of a given schedule, taken apart: a leaf of eight registers, or `2^S` children of the rest. -/
theorem MemoryNode.wf_cases {width : Nat} {sched : List Nat} {n : MemoryNode} (h : n.wf width sched = true) :
    (∃ regs, sched = [3] ∧ n = .leaf regs ∧ regs.length = 8 ∧ ∀ r ∈ regs, r.bits.length = width) ∨
    (∃ s t rest children, sched = s :: t :: rest ∧ n = .internal children ∧ children.toList.length = 2 ^ s ∧
      ∀ c ∈ children.toList, c.wf width (t :: rest) = true) := by
  unfold MemoryNode.wf at h
  split at h <;> simp_all

theorem MemoryNode.wf_leaf {width : Nat} {regs : List WordRegister} :
    (MemoryNode.leaf regs).wf width [3] = true ↔ regs.length = 8 ∧ ∀ r ∈ regs, r.bits.length = width := by
  simp [MemoryNode.wf]

theorem MemoryNode.wf_internal {width s t : Nat} {rest : List Nat} {children : Children} :
    (MemoryNode.internal children).wf width (s :: t :: rest) = true ↔
      children.toList.length = 2 ^ s ∧ ∀ c ∈ children.toList, c.wf width (t :: rest) = true := by
  simp [MemoryNode.wf]

/-- Zipping a list with the demultiplexer's enables: item `sel` gets the enable, every other item gets 0. -/
theorem zipWith_dmux {α β : Type} (f : α → Bit → β) (xs : List α) (we : Bit) (sel : Nat) :
    List.zipWith f xs (dmux xs.length we sel) = xs.mapIdx (fun k x => f x (if k = sel then we else false)) := by
  apply List.ext_getElem?
  intro k
  rw [List.getElem?_zipWith, List.getElem?_mapIdx]
  by_cases hk : k < xs.length
  · rw [dmux_getElem? hk]; simp [hk]
  · simp [hk]

/-- Where enable 0 means holding, zipping with the enables changes item `sel` only. -/
theorem map_zipWith_dmux {α : Type} (f : α → Bit → Nat × α) (xs : List α) (we : Bit) (sel : Nat)
    (hold : ∀ x ∈ xs, (f x false).2 = x) :
    (List.zipWith f xs (dmux xs.length we sel)).map Prod.snd =
      (match xs[sel]? with | some x => xs.set sel (f x we).2 | none => xs) := by
  rw [zipWith_dmux]
  apply List.ext_getElem?
  intro k
  by_cases hs : sel < xs.length
  · rw [List.getElem?_eq_getElem hs]
    simp only [List.getElem?_map, List.getElem?_mapIdx, List.getElem?_set]
    by_cases hk : k < xs.length
    · by_cases he : k = sel
      · subst he; simp [hk]
      · simp [hk, he, Ne.symm he, hold xs[k] (List.getElem_mem hk)]
    · have : sel ≠ k := by omega
      simp [hk, this]
  · rw [show xs[sel]? = none from List.getElem?_eq_none (by omega)]
    simp only [List.getElem?_map, List.getElem?_mapIdx]
    by_cases hk : k < xs.length
    · have : k ≠ sel := by omega
      simp [hk, this, hold xs[k] (List.getElem_mem hk)]
    · simp [hk]

/-- The multiplexed outputs of items zipped with the enables: item `sel`'s output. -/
theorem mux_zipWith_dmux {α : Type} (f : α → Bit → Nat × α) (xs : List α) (we : Bit) (sel : Nat) :
    mux ((List.zipWith f xs (dmux xs.length we sel)).map Prod.fst) sel =
      (xs[sel]?.map (fun x => (f x we).1)).getD 0 := by
  rw [zipWith_dmux, mux]
  simp only [List.getElem?_map, List.getElem?_mapIdx]
  cases xs[sel]? <;> simp

/-- Setting a child or register to what it was changes nothing. -/
theorem set_self {α : Type} {xs : List α} {k : Nat} {x : α} (h : xs[k]? = some x) : xs.set k x = xs := by
  apply List.ext_getElem?
  intro j
  rw [List.getElem?_set]
  by_cases hj : k = j
  · subst hj
    obtain ⟨hk, hx⟩ := List.getElem?_eq_some_iff.mp h
    simp [hk, hx]
  · simp [hj]

/-- Ticking with enable 0 is holding, for the whole subtree (rule R131). -/
theorem MemoryNode.tick_hold {width : Nat} (sched : List Nat) {n : MemoryNode} (h : n.wf width sched = true)
    (v a : Nat) : (n.tick sched v a false).2 = n := by
  induction sched generalizing n a with
  | nil => rcases MemoryNode.wf_cases h with ⟨_, hs, _⟩ | ⟨_, _, _, _, hs, _⟩ <;> simp at hs
  | cons s rest ih =>
    rcases MemoryNode.wf_cases h with ⟨regs, hs, rfl, hlen, _⟩ | ⟨s', t, rest', children, hs, rfl, hlen, hc⟩
    · simp only [MemoryNode.tick, ← hlen]
      rw [map_zipWith_dmux _ _ _ _ (fun r _ => by simp [WordRegister.tick_eq])]
      cases hx : regs[a]? with
      | none => rfl
      | some r => simp [WordRegister.tick_eq, set_self hx]
    · obtain ⟨rfl, rfl⟩ := List.cons.inj hs
      simp only [MemoryNode.tick, ← hlen]
      rw [map_zipWith_dmux _ _ _ _ (fun c hc' => ih (hc c hc') _)]
      split
      · rename_i x hx
        rw [ih (hc x (List.mem_of_getElem? hx)) _, set_self hx, Children.ofList_toList]
      · rw [Children.ofList_toList]

/-- The normative tick, which ticks every child, and the short-circuited one give the same word and the same state (rule
R131). -/
theorem MemoryNode.tick_eq_tickSelected {width : Nat} (sched : List Nat) {n : MemoryNode}
    (h : n.wf width sched = true) (v a : Nat) (we : Bit) : n.tick sched v a we = n.tickSelected sched v a we := by
  induction sched generalizing n a with
  | nil => rcases MemoryNode.wf_cases h with ⟨_, hs, _⟩ | ⟨_, _, _, _, hs, _⟩ <;> simp at hs
  | cons s rest ih =>
    rcases MemoryNode.wf_cases h with ⟨regs, hs, rfl, hlen, _⟩ | ⟨s', t, rest', children, hs, rfl, hlen, hc⟩
    · simp only [MemoryNode.tick, MemoryNode.tickSelected, ← hlen]
      rw [map_zipWith_dmux _ _ _ _ (fun r _ => by simp [WordRegister.tick_eq]), mux_zipWith_dmux]
      cases regs[a]? <;> simp
    · obtain ⟨rfl, rfl⟩ := List.cons.inj hs
      simp only [MemoryNode.tick, MemoryNode.tickSelected, ← hlen]
      rw [map_zipWith_dmux _ _ _ _ (fun c hc' => MemoryNode.tick_hold _ (hc c hc') _ _), mux_zipWith_dmux]
      cases hx : children.toList[highSegment (t :: rest').sum a]? with
      | none => simp
      | some c => simp [ih (hc c (List.mem_of_getElem? hx))]

/-- A tick keeps the node's shape. -/
theorem MemoryNode.wf_tick {width : Nat} (sched : List Nat) {n : MemoryNode} (h : n.wf width sched = true)
    (v a : Nat) (we : Bit) : (n.tick sched v a we).2.wf width sched = true := by
  rw [MemoryNode.tick_eq_tickSelected sched h]
  induction sched generalizing n a with
  | nil => rcases MemoryNode.wf_cases h with ⟨_, hs, _⟩ | ⟨_, _, _, _, hs, _⟩ <;> simp at hs
  | cons s rest ih =>
    rcases MemoryNode.wf_cases h with ⟨regs, hs, rfl, hlen, hw⟩ | ⟨s', t, rest', children, hs, rfl, hlen, hc⟩
    · rw [hs] at h ⊢
      unfold MemoryNode.tickSelected
      split
      · rename_i r hr
        refine MemoryNode.wf_leaf.mpr ⟨by simp [hlen], fun r' hr' => ?_⟩
        rcases List.mem_or_eq_of_mem_set hr' with hm | rfl
        · exact hw _ hm
        · rw [WordRegister.tick_length]; exact hw _ (List.mem_of_getElem? hr)
      · exact h
    · obtain ⟨rfl, rfl⟩ := List.cons.inj hs
      unfold MemoryNode.tickSelected
      simp only
      split
      · rename_i c hx
        refine MemoryNode.wf_internal.mpr ⟨by simp [hlen], fun c' hc' => ?_⟩
        rw [Children.toList_ofList] at hc'
        rcases List.mem_or_eq_of_mem_set hc' with hm | rfl
        · exact hc _ hm
        · exact ih (hc _ (List.mem_of_getElem? hx)) _
      · exact h

/-- `peek(a)` is `view(s)(a)` (rules R41, R127). -/
theorem MemoryNode.peek_eq_view (sched : List Nat) (n : MemoryNode) (a : Nat) : n.peek sched a = n.view sched a := by
  have hw : WordRegister.peek = WordRegister.val := rfl
  induction sched generalizing n a with
  | nil => cases n <;> simp [MemoryNode.peek, MemoryNode.view, mux, hw]
  | cons s rest ih =>
    cases n with
    | leaf regs => simp [MemoryNode.peek, MemoryNode.view, mux, hw]
    | internal children => simp [MemoryNode.peek, MemoryNode.view, mux, ih]

/-- Read before write: a tick returns the word that was at the address (rule R129). -/
theorem MemoryNode.tick_fst {width : Nat} (sched : List Nat) {n : MemoryNode} (h : n.wf width sched = true)
    (v a : Nat) (we : Bit) : (n.tick sched v a we).1 = n.view sched a := by
  rw [MemoryNode.tick_eq_tickSelected sched h]
  induction sched generalizing n a with
  | nil => rcases MemoryNode.wf_cases h with ⟨_, hs, _⟩ | ⟨_, _, _, _, hs, _⟩ <;> simp at hs
  | cons s rest ih =>
    rcases MemoryNode.wf_cases h with ⟨regs, hs, rfl, hlen, hw⟩ | ⟨s', t, rest', children, hs, rfl, hlen, hc⟩
    · simp only [MemoryNode.tickSelected, MemoryNode.view]
      cases regs[a]? <;> simp [WordRegister.tick_eq]
    · obtain ⟨rfl, rfl⟩ := List.cons.inj hs
      simp only [MemoryNode.tickSelected, MemoryNode.view, List.getElem?_map]
      cases hx : children.toList[highSegment (t :: rest').sum a]? with
      | none => simp
      | some c => simp [ih (hc c (List.mem_of_getElem? hx))]

/-- The view after a tick: the address holds the input where the enable is 1, and every other address holds what it held
(rule R130). -/
theorem MemoryNode.tick_view {width : Nat} (sched : List Nat) {n : MemoryNode} (h : n.wf width sched = true)
    {v a : Nat} (hv : v < 2 ^ width) (ha : a < 2 ^ sched.sum) (we : Bit) (b : Nat) :
    (n.tick sched v a we).2.view sched b = if b = a ∧ we = true then v else n.view sched b := by
  rw [MemoryNode.tick_eq_tickSelected sched h]
  induction sched generalizing n a b with
  | nil => rcases MemoryNode.wf_cases h with ⟨_, hs, _⟩ | ⟨_, _, _, _, hs, _⟩ <;> simp at hs
  | cons s rest ih =>
    rcases MemoryNode.wf_cases h with ⟨regs, hs, rfl, hlen, hw⟩ | ⟨s', t, rest', children, hs, rfl, hlen, hc⟩
    · obtain ⟨rfl, rfl⟩ := List.cons.inj hs
      have ha8 : a < regs.length := by rw [hlen]; simpa using ha
      have hwa := hw _ (List.getElem_mem ha8)
      simp only [MemoryNode.tickSelected, List.getElem?_eq_getElem ha8, MemoryNode.view, List.getElem?_set]
      by_cases hb : a = b
      · subst hb
        cases we <;> simp [WordRegister.tick_eq, ha8, hwa, WordRegister.ofWord_val hv]
      · simp [hb, Ne.symm hb]
    · obtain ⟨rfl, rfl⟩ := List.cons.inj hs
      have hhi : highSegment (t :: rest').sum a < children.toList.length := by
        rw [hlen]; exact highSegment_lt (by simpa using ha)
      simp only [MemoryNode.tickSelected, List.getElem?_eq_getElem hhi, MemoryNode.view, Children.toList_ofList,
        List.getElem?_map, List.getElem?_set]
      by_cases hb : highSegment (t :: rest').sum a = highSegment (t :: rest').sum b
      · have hlow : (lowSegment (t :: rest').sum b = lowSegment (t :: rest').sum a) ↔ b = a :=
          ⟨fun hl => eq_of_segments hb.symm hl, fun he => by rw [he]⟩
        have := ih (hc _ (List.getElem_mem hhi)) (lowSegment_lt _ a) (lowSegment (t :: rest').sum b)
        simp only [hlow] at this
        rw [← hb, if_pos rfl, if_pos hhi, List.getElem?_eq_getElem hhi]
        simpa only [Option.map_some, Option.getD_some] using this
      · have hne : ¬(b = a ∧ we = true) := fun he => hb (by rw [he.1])
        rw [if_neg hb, if_neg hne]

/-- A reset node is the created node of its schedule (rules R133, R201). -/
theorem MemoryNode.reset_eq_zero {width : Nat} (sched : List Nat) {n : MemoryNode} (h : n.wf width sched = true) :
    n.reset sched = .zero width sched := by
  induction sched generalizing n with
  | nil => rcases MemoryNode.wf_cases h with ⟨_, hs, _⟩ | ⟨_, _, _, _, hs, _⟩ <;> simp at hs
  | cons s rest ih =>
    rcases MemoryNode.wf_cases h with ⟨regs, hs, rfl, hlen, hw⟩ | ⟨s', t, rest', children, hs, rfl, hlen, hc⟩
    · obtain ⟨rfl, rfl⟩ := List.cons.inj hs
      simp only [MemoryNode.reset, MemoryNode.zero, MemoryNode.leaf.injEq]
      refine List.eq_replicate_iff.mpr ⟨by simpa using hlen, fun r hr => ?_⟩
      obtain ⟨r', hr', rfl⟩ := List.mem_map.mp hr
      rw [WordRegister.reset_eq_zero, hw r' hr']
    · obtain ⟨rfl, rfl⟩ := List.cons.inj hs
      simp only [MemoryNode.reset, MemoryNode.zero, MemoryNode.internal.injEq]
      congr 1
      refine List.eq_replicate_iff.mpr ⟨by simpa using hlen, fun c hc'' => ?_⟩
      obtain ⟨c', hc', rfl⟩ := List.mem_map.mp hc''
      exact ih (hc c' hc')

/-- A created node has the shape of a legal schedule. -/
theorem MemoryNode.wf_zero {width : Nat} {sched : List Nat} (h : schedOk sched = true) :
    (MemoryNode.zero width sched).wf width sched = true := by
  induction sched with
  | nil => simp [schedOk] at h
  | cons s rest ih =>
    cases rest with
    | nil => simp [MemoryNode.zero, MemoryNode.wf, schedOk] at h ⊢; exact h
    | cons t rest =>
      simp only [schedOk, Bool.and_eq_true] at h
      exact MemoryNode.wf_internal.mpr ⟨by simp, fun c hc => by
        rw [Children.toList_ofList, List.mem_replicate] at hc; rw [hc.2]; exact ih h.2⟩

/-- A created node reads 0 everywhere (rules R26, R30). -/
theorem MemoryNode.zero_view (width : Nat) (sched : List Nat) (a : Nat) :
    (MemoryNode.zero width sched).view sched a = 0 := by
  induction sched generalizing a with
  | nil =>
    simp only [MemoryNode.zero, MemoryNode.view, List.getElem?_replicate]
    split <;> simp
  | cons s rest ih =>
    cases rest with
    | nil =>
      simp only [MemoryNode.zero, MemoryNode.view, List.getElem?_replicate]
      split <;> simp
    | cons t rest =>
      simp only [MemoryNode.zero, MemoryNode.view, Children.toList_ofList, List.map_replicate, List.getElem?_replicate]
      split
      · simpa using ih _
      · rfl

/-- Every address of a node reads as a word of its width. -/
theorem MemoryNode.view_lt {width : Nat} (sched : List Nat) {n : MemoryNode} (h : n.wf width sched = true) (a : Nat) :
    n.view sched a < 2 ^ width := by
  induction sched generalizing n a with
  | nil => rcases MemoryNode.wf_cases h with ⟨_, hs, _⟩ | ⟨_, _, _, _, hs, _⟩ <;> simp at hs
  | cons s rest ih =>
    rcases MemoryNode.wf_cases h with ⟨regs, hs, rfl, hlen, hw⟩ | ⟨s', t, rest', children, hs, rfl, hlen, hc⟩
    · simp only [MemoryNode.view]
      cases hx : regs[a]? with
      | none => simp
      | some r => simpa [hw r (List.mem_of_getElem? hx)] using r.val_lt
    · obtain ⟨rfl, rfl⟩ := List.cons.inj hs
      simp only [MemoryNode.view, List.getElem?_map]
      cases hx : children.toList[highSegment (t :: rest').sum a]? with
      | none => simp
      | some c => simpa using ih (hc c (List.mem_of_getElem? hx)) _

/-- Two nodes of one shape with one view are one node: the view is the whole state (rules R20, R41). -/
theorem MemoryNode.eq_of_view {width : Nat} (sched : List Nat) {n n' : MemoryNode} (h : n.wf width sched = true)
    (h' : n'.wf width sched = true) (hv : ∀ a < 2 ^ sched.sum, n.view sched a = n'.view sched a) : n = n' := by
  induction sched generalizing n n' with
  | nil => rcases MemoryNode.wf_cases h with ⟨_, hs, _⟩ | ⟨_, _, _, _, hs, _⟩ <;> simp at hs
  | cons s rest ih =>
    rcases MemoryNode.wf_cases h with ⟨regs, hs, rfl, hlen, hw⟩ | ⟨s', t, rest', children, hs, rfl, hlen, hc⟩
    · obtain ⟨rfl, rfl⟩ := List.cons.inj hs
      rcases MemoryNode.wf_cases h' with ⟨regs', _, rfl, hlen', hw'⟩ | ⟨_, _, _, _, hs', _⟩
      · refine congrArg _ (List.ext_getElem (by omega) fun k hk hk' => ?_)
        have := hv k (by simpa [hlen] using hk)
        simp only [MemoryNode.view, List.getElem?_eq_getElem hk, List.getElem?_eq_getElem hk', Option.map_some,
          Option.getD_some] at this
        exact WordRegister.eq_of_val (by rw [hw _ (List.getElem_mem hk), hw' _ (List.getElem_mem hk')]) this
      · simp at hs'
    · obtain ⟨rfl, rfl⟩ := List.cons.inj hs
      rcases MemoryNode.wf_cases h' with ⟨_, hs', _⟩ | ⟨s'', t', rest'', children', hs', rfl, hlen', hc'⟩
      · simp at hs'
      · obtain ⟨rfl, hs''⟩ := List.cons.inj hs'
        obtain ⟨rfl, rfl⟩ := List.cons.inj hs''
        suffices children.toList = children'.toList by
          rw [← Children.ofList_toList children, this, Children.ofList_toList]
        refine List.ext_getElem (by omega) fun k hk hk' => ?_
        refine ih (hc _ (List.getElem_mem hk)) (hc' _ (List.getElem_mem hk')) fun a ha => ?_
        have hka : k * 2 ^ (t :: rest').sum + a < 2 ^ (s :: t :: rest').sum := by
          rw [List.sum_cons (a := s), Nat.pow_add]
          calc k * 2 ^ (t :: rest').sum + a < k * 2 ^ (t :: rest').sum + 2 ^ (t :: rest').sum := by omega
            _ = (k + 1) * 2 ^ (t :: rest').sum := by rw [Nat.succ_mul]
            _ ≤ 2 ^ s * 2 ^ (t :: rest').sum := Nat.mul_le_mul_right _ (by omega)
        have hhi : highSegment (t :: rest').sum (k * 2 ^ (t :: rest').sum + a) = k := by
          rw [highSegment, Nat.shiftRight_eq_div_pow, Nat.add_comm, Nat.add_mul_div_right _ _ (Nat.two_pow_pos _),
            Nat.div_eq_of_lt ha, Nat.zero_add]
        have hlo : lowSegment (t :: rest').sum (k * 2 ^ (t :: rest').sum + a) = a := by
          rw [lowSegment, Nat.add_comm, Nat.add_mul_mod_self_right, Nat.mod_eq_of_lt ha]
        have := hv _ hka
        simpa only [MemoryNode.view, List.getElem?_map, hhi, hlo, List.getElem?_eq_getElem hk,
          List.getElem?_eq_getElem hk', Option.map_some, Option.getD_some] using this

end Sys2Proof.Machine
end

