-- ==== Sys2Proof/Laws/State.lean ====
section
/-! SUPPORT. One lemma per field per update of State, and what the shared lookups answer. -/

namespace Sys2Proof.Machine

@[simp] theorem State.commit_components (s : State) (m : Nat) (c : Component) (out : Option Nat) :
    (s.commit m c out).components = s.components.set m c := rfl
@[simp] theorem State.commit_trace (s : State) (m : Nat) (c : Component) (out : Option Nat) :
    (s.commit m c out).trace = s.trace := rfl
@[simp] theorem State.commit_returned_some (s : State) (m : Nat) (c : Component) (w : Nat) :
    (s.commit m c (some w)).returned = ⟨m, w⟩ :: s.returned := rfl
@[simp] theorem State.commit_returned_none (s : State) (m : Nat) (c : Component) :
    (s.commit m c none).returned = s.returned := rfl
@[simp] theorem State.commit_draws (s : State) (m : Nat) (c : Component) (out : Option Nat) :
    (s.commit m c out).draws = s.draws := rfl
@[simp] theorem State.emit_components (s : State) (m : Nat) (w : Nat) : (s.emit m w).components = s.components := rfl
@[simp] theorem State.emit_trace (s : State) (m : Nat) (w : Nat) : (s.emit m w).trace = s.trace := rfl
@[simp] theorem State.emit_returned (s : State) (m : Nat) (w : Nat) :
    (s.emit m w).returned = ⟨m, w⟩ :: s.returned := rfl
@[simp] theorem State.emit_draws (s : State) (m : Nat) (w : Nat) : (s.emit m w).draws = s.draws := rfl
@[simp] theorem State.load_components (s : State) (p : List Command) : (s.load p).components = s.components := rfl
@[simp] theorem State.load_trace (s : State) (p : List Command) : (s.load p).trace = p := rfl
@[simp] theorem State.placeTableWord_components (s : State) (w : Nat) :
    (s.placeTableWord w).components = s.components := rfl

/-- What `fetch` can do. -/
theorem State.fetch_cases (s : State) :
    (s.trace = [] ∧ s.fetch = none) ∨
      (∃ c rest, s.trace = c :: rest ∧ s.fetch = some (c, { s with trace := rest })) := by
  cases h : s.trace with
  | nil => exact .inl ⟨rfl, by simp [State.fetch, h]⟩
  | cons c rest => exact .inr ⟨c, rest, rfl, by simp [State.fetch, h]⟩

/-- `onDelayCell` on a DelayCell runs its argument. -/
theorem State.onDelayCell_some {s : State} {m : Nat} {c : DelayCell} (h : s.components[m]? = some (.delayCell c))
    (k : DelayCell → Host.Outcome State Fault Refusal) : s.onDelayCell m k = k c := by
  simp [State.onDelayCell, h]
/-- `onLoadableBit` on a LoadableBit runs its argument. -/
theorem State.onLoadableBit_some {s : State} {m : Nat} {b : LoadableBit}
    (h : s.components[m]? = some (.loadableBit b))
    (k : LoadableBit → Host.Outcome State Fault Refusal) : s.onLoadableBit m k = k b := by
  simp [State.onLoadableBit, h]
/-- `onRegister` on a WordRegister runs its argument. -/
theorem State.onRegister_some {s : State} {m : Nat} {r : Register} (h : s.components[m]? = some (.register r))
    (k : Register → Host.Outcome State Fault Refusal) : s.onRegister m k = k r := by
  simp [State.onRegister, h]
/-- `onRam` on a MemoryNode runs its argument. -/
theorem State.onRam_some {s : State} {m : Nat} {r : Ram} (h : s.components[m]? = some (.memoryNode r))
    (k : Ram → Host.Outcome State Fault Refusal) : s.onRam m k = k r := by
  simp [State.onRam, h]
/-- `onFlatRam` on a FlatRam runs its argument. -/
theorem State.onFlatRam_some {s : State} {m : Nat} {r : FlatRam} (h : s.components[m]? = some (.flatRam r))
    (k : FlatRam → Host.Outcome State Fault Refusal) : s.onFlatRam m k = k r := by
  simp [State.onFlatRam, h]

/-- `onDelayCell` answers a next state only through its argument, on a DelayCell. -/
theorem State.onDelayCell_next {s t : State} {m : Nat} {k : DelayCell → Host.Outcome State Fault Refusal}
    (h : s.onDelayCell m k = .next t) : ∃ c, s.components[m]? = some (.delayCell c) ∧ k c = .next t := by
  unfold State.onDelayCell at h; split at h <;> first | exact ⟨_, ‹_›, h⟩ | cases h
/-- `onLoadableBit` answers a next state only through its argument, on a LoadableBit. -/
theorem State.onLoadableBit_next {s t : State} {m : Nat} {k : LoadableBit → Host.Outcome State Fault Refusal}
    (h : s.onLoadableBit m k = .next t) : ∃ b, s.components[m]? = some (.loadableBit b) ∧ k b = .next t := by
  unfold State.onLoadableBit at h; split at h <;> first | exact ⟨_, ‹_›, h⟩ | cases h
/-- `onRegister` answers a next state only through its argument, on a WordRegister. -/
theorem State.onRegister_next {s t : State} {m : Nat} {k : Register → Host.Outcome State Fault Refusal}
    (h : s.onRegister m k = .next t) : ∃ r, s.components[m]? = some (.register r) ∧ k r = .next t := by
  unfold State.onRegister at h; split at h <;> first | exact ⟨_, ‹_›, h⟩ | cases h
/-- `onRam` answers a next state only through its argument, on a MemoryNode. -/
theorem State.onRam_next {s t : State} {m : Nat} {k : Ram → Host.Outcome State Fault Refusal}
    (h : s.onRam m k = .next t) : ∃ r, s.components[m]? = some (.memoryNode r) ∧ k r = .next t := by
  unfold State.onRam at h; split at h <;> first | exact ⟨_, ‹_›, h⟩ | cases h
/-- `onFlatRam` answers a next state only through its argument, on a FlatRam. -/
theorem State.onFlatRam_next {s t : State} {m : Nat} {k : FlatRam → Host.Outcome State Fault Refusal}
    (h : s.onFlatRam m k = .next t) : ∃ r, s.components[m]? = some (.flatRam r) ∧ k r = .next t := by
  unfold State.onFlatRam at h; split at h <;> first | exact ⟨_, ‹_›, h⟩ | cases h

/-- `whenTyped` answers a next state only for typed operands. -/
theorem whenTyped_next {typed : Bool} {k : Host.Outcome State Fault Refusal} {t : State}
    (h : whenTyped typed k = .next t) : typed = true ∧ k = .next t := by
  cases typed <;> simp_all [whenTyped]
@[simp] theorem whenTyped_true (k : Host.Outcome State Fault Refusal) : whenTyped true k = k := rfl
@[simp] theorem whenTyped_false (k : Host.Outcome State Fault Refusal) :
    whenTyped false k = .refused .operandNotTyped := rfl

end Sys2Proof.Machine
end

