-- ==== Sys2Proof/Laws/Exec.lean ====
section
/-! SUPPORT. What an operation can do: the one inversion lemma over all sixteen meanings. -/

namespace Sys2Proof.Machine

@[simp] theorem drawWords_length (width : Nat) (ns used : List Nat) : (drawWords width ns used).length = ns.length := by
  induction ns generalizing used with
  | nil => rfl
  | cons n ns ih => simp [drawWords, ih]

@[simp] theorem draw_length (width n : Nat) : (draw width n).length = 8 := by simp [draw]

theorem randomizeRegisters_length {r : List Nat} {regs : List WordRegister} (h : r.length = regs.length) :
    (randomizeRegisters r regs).length = regs.length := by simp [randomizeRegisters, h]

/-- A randomized leaf keeps its shape. -/
theorem MemoryNode.wf_randomize {width : Nat} {sched r : List Nat} {regs : List WordRegister}
    (h : (MemoryNode.leaf regs).wf width sched = true) (hr : r.length = 8) :
    (MemoryNode.leaf (randomizeRegisters r regs)).wf width sched = true := by
  rcases MemoryNode.wf_cases h with ⟨regs', rfl, he, hlen, hw⟩ | ⟨_, _, _, _, _, he, _⟩
  · obtain rfl := MemoryNode.leaf.inj he
    refine MemoryNode.wf_leaf.mpr ⟨by rw [randomizeRegisters_length (by omega), hlen], fun r' hr' => ?_⟩
    obtain ⟨k, hk, rfl⟩ := List.mem_iff_getElem.mp hr'
    simp only [randomizeRegisters, List.getElem_zipWith, WordRegister.tick_length]
    exact hw _ (List.getElem_mem _)
  · cases he

theorem Ram.wf_iff {r : Ram} : (Component.memoryNode r).wf = true ↔
    (Shape.memoryNode r.width r.sched).wf = true ∧ r.root.wf r.width r.sched = true := by simp [Component.wf]

theorem FlatRam.wf_iff {r : FlatRam} : (Component.flatRam r).wf = true ↔
    (Shape.flatRam r.width r.addressWidth r.portWidth).wf = true ∧ r.mem.wf = true ∧
      r.mem.within r.width r.capacity = true := by simp [Component.wf, and_assoc]

theorem Register.wf_iff {r : Register} : (Component.register r).wf = true ↔ 1 ≤ r.width ∧ r.val < 2 ^ r.width := by
  cases r with
  | bitArray r => simpa [Component.wf, Register.width, Register.val] using fun _ => r.val_lt
  | flat r => simp [Component.wf, Register.width, Register.val]

theorem Register.shape_width (r : Register) : (Component.register r).shape.inWidth = r.width := by cases r <;> rfl

theorem Register.shape_tick (v : Nat) (we : Bit) (r : Register) :
    (Component.register (r.tick v we).2).shape = (Component.register r).shape := by
  cases r with
  | bitArray r => simp [Register.tick, Component.shape]
  | flat r => cases we <;> rfl

theorem Register.shape_reset (r : Register) : (Component.register r.reset).shape = (Component.register r).shape := by
  cases r with
  | bitArray r => simp [Register.reset, Component.shape, WordRegister.reset_eq_zero]
  | flat r => rfl

/-- What one component's next state and returned word are like: the structure is kept, and so is well-formedness; a
returned word has the component's width. -/
structure Performed (c c' : Component) (out : Option Nat) : Prop where
  shape : c'.shape = c.shape
  wf : c.wf = true → c'.wf = true
  out : c.wf = true → ∀ w ∈ out, w < 2 ^ c.shape.inWidth

/-- Where an operation answers a next state: the component it names exists; only that component changes, and it keeps its
structure and well-formedness; at most one word is returned, of the component's width; the trace stays. -/
theorem exec_next {i : Instr} {s t : State} (h : exec i s = .next t) :
    ∃ c c' out, s.components[i.component]? = some c ∧ t.components = s.components.set i.component c' ∧
      t.returned = (out.map (Returned.mk i.component)).toList ++ s.returned ∧ t.trace = s.trace ∧
      Performed c c' out := by
  have bitOut : ∀ b : Bit, ∀ w ∈ some (bitWord b), w < 2 ^ 1 := by
    rintro b w ⟨⟩; cases b <;> decide
  cases i with
  | dcTick m x =>
    obtain ⟨c, hc, hk⟩ := State.onDelayCell_next h
    cases hk
    exact ⟨_, _, _, hc, rfl, rfl, rfl, rfl, fun _ => rfl, fun _ => bitOut _⟩
  | dcPeek m =>
    obtain ⟨c, hc, hk⟩ := State.onDelayCell_next h
    cases hk
    exact ⟨_, _, some _, hc, (set_self hc).symm, rfl, rfl, rfl, fun _ => rfl, fun _ => bitOut _⟩
  | dcReset m =>
    obtain ⟨c, hc, hk⟩ := State.onDelayCell_next h
    cases hk
    exact ⟨_, _, none, hc, rfl, rfl, rfl, rfl, fun _ => rfl, fun _ => nofun⟩
  | lbTick m x we =>
    obtain ⟨c, hc, hk⟩ := State.onLoadableBit_next h
    cases hk
    exact ⟨_, _, _, hc, rfl, rfl, rfl, rfl, fun _ => rfl, fun _ => bitOut _⟩
  | lbPeek m =>
    obtain ⟨c, hc, hk⟩ := State.onLoadableBit_next h
    cases hk
    exact ⟨_, _, some _, hc, (set_self hc).symm, rfl, rfl, rfl, fun _ => rfl, fun _ => bitOut _⟩
  | lbReset m =>
    obtain ⟨c, hc, hk⟩ := State.onLoadableBit_next h
    cases hk
    exact ⟨_, _, none, hc, rfl, rfl, rfl, rfl, fun _ => rfl, fun _ => nofun⟩
  | wrTick m v we =>
    obtain ⟨r, hc, hk⟩ := State.onRegister_next h
    obtain ⟨hv, hk⟩ := whenTyped_next hk
    cases hk
    rw [Word.fits_iff] at hv
    refine ⟨_, _, some _, hc, rfl, rfl, rfl, Register.shape_tick v we r, fun hw => ?_, fun hw w hm => ?_⟩
    · rw [Register.wf_iff] at hw ⊢
      rw [Register.tick_width, Register.tick_val hv]
      exact ⟨hw.1, by split <;> [exact hv; exact hw.2]⟩
    · rw [Register.wf_iff] at hw
      cases hm
      rw [Register.shape_width, Register.tick_fst]
      exact hw.2
  | wrPeek m =>
    obtain ⟨r, hc, hk⟩ := State.onRegister_next h
    cases hk
    refine ⟨_, _, some _, hc, (set_self hc).symm, rfl, rfl, rfl, fun hw => hw, fun hw w hm => ?_⟩
    rw [Register.wf_iff] at hw
    cases hm
    rw [Register.shape_width, Register.peek_eq_val]
    exact hw.2
  | wrReset m =>
    obtain ⟨r, hc, hk⟩ := State.onRegister_next h
    cases hk
    refine ⟨_, _, none, hc, rfl, rfl, rfl, Register.shape_reset r, fun hw => ?_, fun _ => nofun⟩
    rw [Register.wf_iff] at hw ⊢
    rw [Register.reset_width, Register.reset_val]
    exact ⟨hw.1, Nat.two_pow_pos _⟩
  | ramTick m v a we =>
    obtain ⟨r, hc, hk⟩ := State.onRam_next h
    obtain ⟨_, hk⟩ := whenTyped_next hk
    cases hk
    refine ⟨_, _, some _, hc, rfl, rfl, rfl, rfl, fun hw => ?_, fun hw w hm => ?_⟩
    · rw [Ram.wf_iff] at hw ⊢
      exact ⟨hw.1, MemoryNode.wf_tick _ hw.2 v a we⟩
    · rw [Ram.wf_iff] at hw
      cases hm
      rw [Ram.tick, MemoryNode.tick_fst _ hw.2]
      exact MemoryNode.view_lt _ hw.2 a
  | ramPeek m a =>
    obtain ⟨r, hc, hk⟩ := State.onRam_next h
    obtain ⟨_, hk⟩ := whenTyped_next hk
    cases hk
    refine ⟨_, _, some _, hc, (set_self hc).symm, rfl, rfl, rfl, fun hw => hw, fun hw w hm => ?_⟩
    rw [Ram.wf_iff] at hw
    cases hm
    rw [Ram.peek, MemoryNode.peek_eq_view]
    exact MemoryNode.view_lt _ hw.2 a
  | ramReset m =>
    obtain ⟨r, hc, hk⟩ := State.onRam_next h
    cases hk
    refine ⟨_, _, none, hc, rfl, rfl, rfl, rfl, fun hw => ?_, fun _ => nofun⟩
    rw [Ram.wf_iff] at hw ⊢
    refine ⟨hw.1, ?_⟩
    have hs : schedOk r.sched = true := by
      have := hw.1; simp only [Shape.wf, Bool.and_eq_true] at this; exact this.1.2
    rw [Ram.reset, MemoryNode.reset_eq_zero _ hw.2]
    exact MemoryNode.wf_zero hs
  | ramRandomize m =>
    obtain ⟨r, hc, hk⟩ := State.onRam_next h
    split at hk
    · cases hk
    · rename_i regs hroot
      split at hk
      · cases hk
        refine ⟨_, _, none, hc, rfl, rfl, rfl, rfl, fun hw => ?_, fun _ => nofun⟩
        rw [Ram.wf_iff] at hw ⊢
        exact ⟨hw.1, MemoryNode.wf_randomize (hroot ▸ hw.2) (draw_length _ _)⟩
      · cases hk
  | framTick m v a we =>
    obtain ⟨r, hc, hk⟩ := State.onFlatRam_next h
    obtain ⟨ht, hk⟩ := whenTyped_next hk
    cases hk
    simp only [Bool.and_eq_true, Word.fits_iff] at ht
    refine ⟨_, _, some _, hc, rfl, rfl, rfl, by simp [Component.shape], fun hw => ?_, fun hw w hm => ?_⟩
    · rw [FlatRam.wf_iff] at hw ⊢
      cases we with
      | false => exact hw
      | true =>
        exact ⟨hw.1, Memory.wf_write hw.2.1 _ _, Memory.within_write hw.2.2 (FlatRam.location_lt r a) ht.1⟩
    · rw [FlatRam.wf_iff] at hw
      cases hm
      exact Memory.read_lt hw.2.2 _
  | framPeek m a =>
    obtain ⟨r, hc, hk⟩ := State.onFlatRam_next h
    obtain ⟨_, hk⟩ := whenTyped_next hk
    cases hk
    refine ⟨_, _, some _, hc, (set_self hc).symm, rfl, rfl, rfl, fun hw => hw, fun hw w hm => ?_⟩
    rw [FlatRam.wf_iff] at hw
    cases hm
    exact Memory.read_lt hw.2.2 _
  | framReset m =>
    obtain ⟨r, hc, hk⟩ := State.onFlatRam_next h
    cases hk
    refine ⟨_, _, none, hc, rfl, rfl, rfl, rfl, fun hw => ?_, fun _ => nofun⟩
    rw [FlatRam.wf_iff] at hw ⊢
    exact ⟨hw.1, rfl, rfl⟩

/-- What a step can do: nothing at the trace's end; else the decoded operation, on the state with its command taken off
the trace. -/
theorem step_next {s t : State} (h : step s = .next t) :
    (s.trace = [] ∧ t = s) ∨
    ∃ c rest k i, s.trace = c :: rest ∧ s.components[c.component]? = some k ∧ decode k.shape c.component c.word = .ok i ∧
      exec i { s with trace := rest } = .next t := by
  unfold step at h
  rcases State.fetch_cases s with ⟨hn, hf⟩ | ⟨c, rest, ht, hf⟩
  · rw [hf] at h
    simp only [Host.Outcome.next.injEq] at h
    exact .inl ⟨hn, h.symm⟩
  · rw [hf] at h
    simp only [State.decodeCommand] at h
    cases hk : s.components[c.component]? with
    | none => simp [hk] at h
    | some k =>
      simp only [hk] at h
      cases hd : decode k.shape c.component c.word with
      | error e => simp [hd] at h
      | ok i =>
        simp only [hd] at h
        exact .inr ⟨c, rest, k, i, ht, hk, hd, h⟩

end Sys2Proof.Machine
end

