-- ==== Sys2Proof/Laws/Meanings.lean ====
section
/-! SUPPORT. One equation per meaning: what `exec` answers on a component of its kind with typed operands. -/

namespace Sys2Proof.Machine

variable {s : State} {m : Nat}

theorem exec_dcTick {c : DelayCell} (h : s.components[m]? = some (.delayCell c)) (x : Bit) :
    exec (.dcTick m x) s = .next (s.commit m (.delayCell ⟨x⟩) (some (bitWord c.q))) := State.onDelayCell_some h _

theorem exec_dcPeek {c : DelayCell} (h : s.components[m]? = some (.delayCell c)) :
    exec (.dcPeek m) s = .next (s.emit m (bitWord c.q)) := State.onDelayCell_some h _

theorem exec_dcReset {c : DelayCell} (h : s.components[m]? = some (.delayCell c)) :
    exec (.dcReset m) s = .next (s.commit m (.delayCell ⟨false⟩) none) := State.onDelayCell_some h _

theorem exec_lbTick {b : LoadableBit} (h : s.components[m]? = some (.loadableBit b)) (x we : Bit) :
    exec (.lbTick m x we) s =
      .next (s.commit m (.loadableBit ⟨⟨if we then x else b.cell.q⟩⟩) (some (bitWord b.cell.q))) :=
  State.onLoadableBit_some h _

theorem exec_lbPeek {b : LoadableBit} (h : s.components[m]? = some (.loadableBit b)) :
    exec (.lbPeek m) s = .next (s.emit m (bitWord b.cell.q)) := State.onLoadableBit_some h _

theorem exec_lbReset {b : LoadableBit} (h : s.components[m]? = some (.loadableBit b)) :
    exec (.lbReset m) s = .next (s.commit m (.loadableBit ⟨⟨false⟩⟩) none) := State.onLoadableBit_some h _

theorem exec_wrTick {r : Register} (h : s.components[m]? = some (.register r)) {v : Nat} (hv : v < 2 ^ r.width)
    (we : Bit) : exec (.wrTick m v we) s = .next (s.commit m (.register (r.tick v we).2) (some r.val)) := by
  simp only [exec, execWrTick, State.onRegister_some h, (Word.fits_iff _ _).mpr hv, whenTyped_true, Register.tick_fst]

theorem exec_wrPeek {r : Register} (h : s.components[m]? = some (.register r)) :
    exec (.wrPeek m) s = .next (s.emit m r.val) := by
  simp only [exec, execWrPeek, State.onRegister_some h, Register.peek_eq_val]

theorem exec_wrReset {r : Register} (h : s.components[m]? = some (.register r)) :
    exec (.wrReset m) s = .next (s.commit m (.register r.reset) none) := State.onRegister_some h _

theorem exec_ramTick {r : Ram} (h : s.components[m]? = some (.memoryNode r)) {v a : Nat} (hv : v < 2 ^ r.width)
    (ha : a < 2 ^ r.addressWidth) (we : Bit) :
    exec (.ramTick m v a we) s = .next (s.commit m (.memoryNode (r.tick v a we).2) (some (r.tick v a we).1)) := by
  simp only [exec, execRamTick, State.onRam_some h, (Word.fits_iff _ _).mpr hv, (Word.fits_iff _ _).mpr ha,
    Bool.and_self, whenTyped_true]

theorem exec_ramPeek {r : Ram} (h : s.components[m]? = some (.memoryNode r)) {a : Nat} (ha : a < 2 ^ r.addressWidth) :
    exec (.ramPeek m a) s = .next (s.emit m (r.view a)) := by
  simp only [exec, execRamPeek, State.onRam_some h, (Word.fits_iff _ _).mpr ha, whenTyped_true, Ram.peek,
    MemoryNode.peek_eq_view, Ram.view]

theorem exec_ramReset {r : Ram} (h : s.components[m]? = some (.memoryNode r)) :
    exec (.ramReset m) s = .next (s.commit m (.memoryNode r.reset) none) := State.onRam_some h _

theorem randomizeWith_leaf {r : Ram} (h : s.components[m]? = some (.memoryNode r)) {regs : List WordRegister}
    (hr : r.root = .leaf regs) (hW : 3 ≤ r.width) (draws : List Nat) :
    randomizeWith draws m s = .next ({ s with draws := s.draws + 1 }.commit m
      (.memoryNode { r with root := .leaf (randomizeRegisters draws regs) }) none) := by
  simp only [randomizeWith, State.onRam_some h, hr, if_pos hW]

theorem exec_ramRandomize {r : Ram} (h : s.components[m]? = some (.memoryNode r)) {regs : List WordRegister}
    (hr : r.root = .leaf regs) (hW : 3 ≤ r.width) :
    exec (.ramRandomize m) s = .next ({ s with draws := s.draws + 1 }.commit m
      (.memoryNode { r with root := .leaf (randomizeRegisters (draw r.width s.draws) regs) }) none) := by
  have hw : s.ramWidth m = r.width := by simp [State.ramWidth, h]
  show randomizeWith (draw (s.ramWidth m) s.draws) m s = _
  rw [hw]
  exact randomizeWith_leaf h hr hW _

theorem exec_framTick {r : FlatRam} (h : s.components[m]? = some (.flatRam r)) {v a : Nat} (hv : v < 2 ^ r.width)
    (ha : a < 2 ^ r.portWidth) (we : Bit) :
    exec (.framTick m v a we) s = .next (s.commit m (.flatRam (r.tick v a we).2) (some (r.view (r.location a)))) := by
  simp only [exec, execFramTick, State.onFlatRam_some h, (Word.fits_iff _ _).mpr hv, (Word.fits_iff _ _).mpr ha,
    Bool.and_self, whenTyped_true, FlatRam.tick_fst]

theorem exec_framPeek {r : FlatRam} (h : s.components[m]? = some (.flatRam r)) {a : Nat} (ha : a < 2 ^ r.portWidth) :
    exec (.framPeek m a) s = .next (s.emit m (r.view (r.location a))) := by
  simp only [exec, execFramPeek, State.onFlatRam_some h, (Word.fits_iff _ _).mpr ha, whenTyped_true]
  rfl

theorem exec_framReset {r : FlatRam} (h : s.components[m]? = some (.flatRam r)) :
    exec (.framReset m) s = .next (s.commit m (.flatRam r.reset) none) := State.onFlatRam_some h _

/-- The memory law of a tree tick, for the component alone (rules R129, R130). -/
theorem Ram.tick_fst {r : Ram} (hw : (Component.memoryNode r).wf = true) (v a : Nat) (we : Bit) :
    (r.tick v a we).1 = r.view a := MemoryNode.tick_fst _ (Ram.wf_iff.mp hw).2 v a we

theorem Ram.tick_view {r : Ram} (hw : (Component.memoryNode r).wf = true) {v a : Nat} (hv : v < 2 ^ r.width)
    (ha : a < 2 ^ r.addressWidth) (we : Bit) (b : Nat) :
    (r.tick v a we).2.view b = if b = a ∧ we = true then v else r.view b :=
  MemoryNode.tick_view _ (Ram.wf_iff.mp hw).2 hv ha we b

theorem Ram.tick_hold {r : Ram} (hw : (Component.memoryNode r).wf = true) (v a : Nat) : (r.tick v a false).2 = r := by
  simp only [Ram.tick, MemoryNode.tick_hold _ (Ram.wf_iff.mp hw).2]

theorem Ram.reset_view {r : Ram} (hw : (Component.memoryNode r).wf = true) (a : Nat) : r.reset.view a = 0 := by
  simp only [Ram.view, Ram.reset, MemoryNode.reset_eq_zero _ (Ram.wf_iff.mp hw).2, MemoryNode.zero_view]

/-- The memory law of a FlatRam tick, for the component alone (rule R151). -/
theorem FlatRam.tick_view {r : FlatRam} (hw : (Component.flatRam r).wf = true) (v a : Nat) (we : Bit) (b : Nat) :
    (r.tick v a we).2.view b = if b = r.location a ∧ we = true then v else r.view b := by
  cases we with
  | false => simp [FlatRam.tick]
  | true =>
    by_cases hb : b = r.location a
    · subst hb; simpa [FlatRam.tick, FlatRam.view] using Memory.read_write_same (FlatRam.wf_iff.mp hw).2.1 _ v
    · simpa [FlatRam.tick, FlatRam.view, hb] using Memory.read_write_other hb r.mem v

end Sys2Proof.Machine
end

