-- ==== Sys2Proof/Laws/PerInstr.lean ====
section
/-! SUPPORT. The family RoundTrip: for every constructor, decoding the encoding of a well-typed operation gives it back. -/

namespace Sys2Proof.Laws.RoundTrip

/-- The round trip of one operation, on every shape it is well-typed for. -/
def Statement (i : Instr) : Prop := ∀ sh : Shape, i.wf sh = true → decode sh i.component (encode sh i) = .ok i

theorem dcTick (m : Nat) (x : Bit) : Statement (.dcTick m x) := by
  intro sh h
  obtain rfl : sh = .delayCell := by simpa [Instr.wf] using h
  rw [encode, decode_commandWord (by decide) (by decide) (by cases x <;> decide)]
  cases x <;> rfl

theorem dcPeek (m : Nat) : Statement (.dcPeek m) := by
  intro sh h
  obtain rfl : sh = .delayCell := by simpa [Instr.wf] using h
  rw [encode, decode_commandWord (by decide) (by decide) (by decide)]; rfl

theorem dcReset (m : Nat) : Statement (.dcReset m) := by
  intro sh h
  obtain rfl : sh = .delayCell := by simpa [Instr.wf] using h
  rw [encode, decode_commandWord (by decide) (by decide) (by decide)]; rfl

theorem lbTick (m : Nat) (x we : Bit) : Statement (.lbTick m x we) := by
  intro sh h
  obtain rfl : sh = .loadableBit := by simpa [Instr.wf] using h
  rw [encode, decode_commandWord (tickCtl_lt _) (by decide) (by cases x <;> decide)]
  cases x <;> cases we <;> rfl

theorem lbPeek (m : Nat) : Statement (.lbPeek m) := by
  intro sh h
  obtain rfl : sh = .loadableBit := by simpa [Instr.wf] using h
  rw [encode, decode_commandWord (by decide) (by decide) (by decide)]; rfl

theorem lbReset (m : Nat) : Statement (.lbReset m) := by
  intro sh h
  obtain rfl : sh = .loadableBit := by simpa [Instr.wf] using h
  rw [encode, decode_commandWord (by decide) (by decide) (by decide)]; rfl

theorem wrTick (m : Nat) (v : Nat) (we : Bit) : Statement (.wrTick m v we) := by
  intro sh h
  simp only [Instr.wf, Bool.and_eq_true, Word.fits_iff] at h
  rw [encode, decode_commandWord (tickCtl_lt _) (Nat.two_pow_pos _) h.2, ctlClass_tickCtl, tickCtl_load]
  cases sh <;> simp_all [Shape.isRegister, operation, Instr.component]

theorem wrPeek (m : Nat) : Statement (.wrPeek m) := by
  intro sh h
  rw [encode, decode_commandWord (by decide) (Nat.two_pow_pos _) (Nat.two_pow_pos _)]
  cases sh <;> first | rfl | simp [Instr.wf, Shape.isRegister] at h

theorem wrReset (m : Nat) : Statement (.wrReset m) := by
  intro sh h
  rw [encode, decode_commandWord (by decide) (Nat.two_pow_pos _) (Nat.two_pow_pos _)]
  cases sh <;> first | rfl | simp [Instr.wf, Shape.isRegister] at h

theorem ramTick (m v a : Nat) (we : Bit) : Statement (.ramTick m v a we) := by
  intro sh h
  simp only [Instr.wf, Bool.and_eq_true, Word.fits_iff] at h
  rw [encode, decode_commandWord (tickCtl_lt _) h.2 h.1.2, ctlClass_tickCtl, tickCtl_load]
  cases sh <;> simp_all [Shape.isMemoryNode, operation, Instr.component]

theorem ramPeek (m a : Nat) : Statement (.ramPeek m a) := by
  intro sh h
  simp only [Instr.wf, Bool.and_eq_true, Word.fits_iff] at h
  rw [encode, decode_commandWord (by decide) h.2 (Nat.two_pow_pos _)]
  cases sh <;> first | rfl | simp [Shape.isMemoryNode] at h

theorem ramReset (m : Nat) : Statement (.ramReset m) := by
  intro sh h
  rw [encode, decode_commandWord (by decide) (Nat.two_pow_pos _) (Nat.two_pow_pos _)]
  cases sh <;> first | rfl | simp [Instr.wf, Shape.isMemoryNode] at h

theorem ramRandomize (m : Nat) : Statement (.ramRandomize m) := by
  intro sh h
  rw [encode, decode_commandWord (by decide) (Nat.two_pow_pos _) (Nat.two_pow_pos _)]
  cases sh <;> simp_all [Instr.wf, Shape.isLeaf, Shape.isMemoryNode, Shape.addressFieldWidth, Instr.component]
  rw [show ctlClass 4 = .randomize by decide, operation, if_pos h.1]

theorem framTick (m v a : Nat) (we : Bit) : Statement (.framTick m v a we) := by
  intro sh h
  simp only [Instr.wf, Bool.and_eq_true, Word.fits_iff] at h
  rw [encode, decode_commandWord (tickCtl_lt _) h.2 h.1.2, ctlClass_tickCtl, tickCtl_load]
  cases sh <;> simp_all [Shape.isFlatRam, operation, Instr.component]

theorem framPeek (m a : Nat) : Statement (.framPeek m a) := by
  intro sh h
  simp only [Instr.wf, Bool.and_eq_true, Word.fits_iff] at h
  rw [encode, decode_commandWord (by decide) h.2 (Nat.two_pow_pos _)]
  cases sh <;> first | rfl | simp [Shape.isFlatRam] at h

theorem framReset (m : Nat) : Statement (.framReset m) := by
  intro sh h
  rw [encode, decode_commandWord (by decide) (Nat.two_pow_pos _) (Nat.two_pow_pos _)]
  cases sh <;> first | rfl | simp [Instr.wf, Shape.isFlatRam] at h

end Sys2Proof.Laws.RoundTrip
end

