-- ==== Sys2Proof/Tests/Slice0.lean ====
section
/-! SUPPORT. The model's own tests. Expected results are the spec's: the worked examples of the rules and the vectors of
95_test_vectors.md, named beside each test. The witnesses at the end show, for each statement with hypotheses, inputs
that meet them all. -/

namespace Sys2Proof.Tests

open Sys2Proof Sys2Proof.Machine

/-! ### A small state: one component, number 0 -/

/-- The machine that has the one component `c`. -/
def one (c : Component) : State := { components := [c], trace := [], returned := [], draws := 0 }

/-- The bit-array register of width `w` that holds `v`. -/
def bitRegister (w v : Nat) : WordRegister := ⟨(wordBits w v).map (fun b => ⟨⟨b⟩⟩)⟩

/-- The RAM8 leaf, `W = 16`, that holds the given words. -/
def leaf (words : List Nat) : Ram := ⟨16, [3], .leaf (words.map (bitRegister 16))⟩

/-- A RAM64, `W = 16`, with the word `v` written at address `a`. -/
def ram64 (v a : Nat) : Ram := (Ram.tick v a true ⟨16, [3, 3], .zero 16 [3, 3]⟩).2

/-- A FlatRam(64), `W = 16`, `AW = 16`. -/
def flat64 (mem : Memory) : FlatRam := ⟨16, 6, 16, mem⟩

/-- What one operation returns and what its component then holds at location `a`. -/
def seen (i : Instr) (c : Component) (a : Nat) : Option (Option Nat × Nat) :=
  match exec i (one c) with
  | .next t => some (t.returned.head?.map Returned.word, t.view 0 a)
  | .fault _ => none
  | .refused _ => none

/-- The reason an operation is refused. -/
def refusal (i : Instr) (c : Component) : Option Refusal :=
  match exec i (one c) with
  | .next _ => none
  | .fault _ => none
  | .refused r => some r

/-- What one step leaves: the words returned, the trace, and what component 0 holds at location `a`. -/
def stepped (s : State) (a : Nat) : Option (List Returned × List Command × Nat) :=
  match step s with
  | .next t => some (t.returned, t.trace, t.view 0 a)
  | .fault _ => none
  | .refused _ => none

/-- Operations performed one after the other all answer a next state. -/
def completes (ops : List Instr) (c : Component) : Bool :=
  match runOps ops (one c) with
  | .next _ => true
  | .fault _ => false
  | .refused _ => false

/-! ### Decoding: words written out from the spec's encoding -/

/-- P3: `ctl = 0010`, `in = 1`; the same with `load = 1`, which a DelayCell ignores (rule R66). -/
theorem test_decode_dcTick : decode .delayCell 0 0b00101 = .ok (.dcTick 0 true) ∧
    decode .delayCell 0 0b00111 = .ok (.dcTick 0 true) ∧ decode .delayCell 0 0b00100 = .ok (.dcTick 0 false) := by decide
theorem test_decode_dcPeek : decode .delayCell 0 0b00000 = .ok (.dcPeek 0) ∧
    decode .delayCell 0 0b00011 = .ok (.dcPeek 0) := by decide
theorem test_decode_dcReset : decode .delayCell 0 0b10000 = .ok (.dcReset 0) ∧
    decode .delayCell 0 0b11111 = .ok (.dcReset 0) := by decide
/-- V2: the words `0x05, 0x07, 0x04, 0x06`. -/
theorem test_decode_lbTick : decode .loadableBit 0 0x05 = .ok (.lbTick 0 true false) ∧
    decode .loadableBit 0 0x07 = .ok (.lbTick 0 true true) ∧ decode .loadableBit 0 0x04 = .ok (.lbTick 0 false false) ∧
    decode .loadableBit 0 0x06 = .ok (.lbTick 0 false true) := by decide
theorem test_decode_lbPeek : decode .loadableBit 0 0b00000 = .ok (.lbPeek 0) := by decide
theorem test_decode_lbReset : decode .loadableBit 0 0b10000 = .ok (.lbReset 0) := by decide
/-- P4: `0x3A`, `0x25` (not canonical), `0x3F`. -/
theorem test_decode_wrTick : decode (.wordRegister 4) 0 0x3A = .ok (.wrTick 0 0xA true) ∧
    decode (.flatRegister 4) 0 0x25 = .ok (.wrTick 0 0x5 false) ∧
    decode (.wordRegister 4) 0 0x3F = .ok (.wrTick 0 0xF true) := by decide
theorem test_decode_wrPeek : decode (.wordRegister 4) 0 0x00 = .ok (.wrPeek 0) := by decide
theorem test_decode_wrReset : decode (.flatRegister 4) 0 0x80 = .ok (.wrReset 0) := by decide
/-- V4.1, V4.2, R68, V5.1 and V5.2. -/
theorem test_decode_ramTick : decode (.memoryNode 16 [3]) 0 0x1D0007 = .ok (.ramTick 0 7 5 true) ∧
    decode (.memoryNode 16 [3]) 0 0x150009 = .ok (.ramTick 0 9 5 false) ∧
    decode (.memoryNode 16 [3, 3]) 0 0x0CD0521 = .ok (.ramTick 0 1313 13 true) ∧
    decode (.memoryNode 16 [2, 3, 3, 3, 3]) 0 0xE70FABCD = .ok (.ramTick 0 0xABCD 9999 true) ∧
    decode (.memoryNode 16 [3, 3, 3, 3, 3]) 0 0x1D555AAAA = .ok (.ramTick 0 0xAAAA 21845 true) := by decide
/-- V4.5, V4.6. -/
theorem test_decode_ramPeek : decode (.memoryNode 16 [3]) 0 0x050000 = .ok (.ramPeek 0 5) ∧
    decode (.memoryNode 16 [3]) 0 0x040000 = .ok (.ramPeek 0 4) := by decide
/-- V4.7, R68. -/
theorem test_decode_ramReset : decode (.memoryNode 16 [3]) 0 0x400000 = .ok (.ramReset 0) ∧
    decode (.memoryNode 16 [3, 3]) 0 0x2000000 = .ok (.ramReset 0) := by decide
/-- P5; V9: on a RAM64 and on the other components it is refused. -/
theorem test_decode_ramRandomize : decode (.memoryNode 16 [3]) 0 0x200000 = .ok (.ramRandomize 0) ∧
    decode (.memoryNode 16 [3, 3]) 0 0x1000000 = .error .reservedRandomize ∧
    decode .delayCell 0 0b01000 = .error .reservedRandomize ∧ decode .loadableBit 0 0b01000 = .error .reservedRandomize ∧
    decode (.wordRegister 4) 0 0x40 = .error .reservedRandomize ∧
    decode (.flatRegister 4) 0 0x40 = .error .reservedRandomize ∧
    decode (.flatRam 16 6 16) 0 0x400000000 = .error .reservedRandomize := by decide
/-- V6.1, V6.4, V6.6. -/
theorem test_decode_framTick : decode (.flatRam 16 6 16) 0 0x3004D0521 = .ok (.framTick 0 1313 77 true) ∧
    decode (.flatRam 16 6 16) 0 0x2FA0D0000 = .ok (.framTick 0 0 64013 false) ∧
    decode (.flatRam 16 6 16) 0 0x3FFFF0005 = .ok (.framTick 0 5 65535 true) := by decide
/-- V6.3, V6.8. -/
theorem test_decode_framPeek : decode (.flatRam 16 6 16) 0 0x0008D0000 = .ok (.framPeek 0 141) ∧
    decode (.flatRam 16 6 16) 0 0x000400000 = .ok (.framPeek 0 64) := by decide
theorem test_decode_framReset : decode (.flatRam 16 6 16) 0 0x800000000 = .ok (.framReset 0) := by decide
/-- Rule R65: a 23-bit command word has no bit 23. -/
theorem test_decode_too_wide : decode (.memoryNode 16 [3]) 0 0x800000 = .error .tooWide := by decide
/-- Rule R67: the canonical encoding of R68's row `tick _, 13, 0`, and of V4.1 and V6.4. -/
theorem test_encode : encode (.memoryNode 16 [3, 3]) (.ramTick 0 0 13 false) = 0x08D0000 ∧
    encode (.memoryNode 16 [3]) (.ramTick 0 7 5 true) = 0x1D0007 ∧
    encode (.flatRam 16 6 16) (.framTick 0 0 64013 false) = 0x2FA0D0000 := by decide
/-- The four rows of rule R66's table, as spec/opcode_table.json has them for the RAM family. -/
theorem test_decodeTableWord : decodeTableWord 8 0x2 = some (.ramTick 0 0 0 false) ∧
    decodeTableWord 8 0x3 = some (.ramTick 0 0 0 true) ∧ decodeTableWord 8 0x0 = some (.ramPeek 0 0) ∧
    decodeTableWord 8 0x8 = some (.ramReset 0) ∧ decodeTableWord 8 0x4 = some (.ramRandomize 0) := by decide

/-! ### Well-formedness: each check refuses an ill-formed term -/

theorem test_wf_schedule : schedOk [] = false ∧ schedOk [2] = false ∧ schedOk [3, 2] = false ∧
    schedOk [4, 3] = false ∧ schedOk [0, 3] = false ∧ schedOk [1, 3, 3, 3, 3] = true := by decide
theorem test_wf_shape_width : (Shape.wordRegister 0).wf = false ∧ (Shape.flatRegister 0).wf = false ∧
    (Shape.memoryNode 0 [3]).wf = false ∧ (Shape.flatRam 0 6 16).wf = false := by decide
/-- Rule R123: "must be reproduced exactly"; `A < 3` is not offered (D7); `AW >= A` (rule R150). -/
theorem test_wf_shape_addresses : (Shape.memoryNode 16 [3, 1, 3, 3, 3]).wf = false ∧ (Shape.memoryNode 16 [2]).wf = false ∧
    (Shape.flatRam 16 2 16).wf = false ∧ (Shape.flatRam 16 6 5).wf = false ∧
    (Shape.memoryNode 16 [1, 3, 3, 3, 3]).wf = true ∧ (Shape.flatRam 16 6 6).wf = true := by decide
theorem test_wf_wrong_component : (Instr.dcTick 0 true).wf .loadableBit = false ∧ (Instr.dcPeek 0).wf .loadableBit = false ∧
    (Instr.dcReset 0).wf .loadableBit = false ∧ (Instr.lbTick 0 true true).wf .delayCell = false ∧
    (Instr.lbPeek 0).wf .delayCell = false ∧ (Instr.lbReset 0).wf .delayCell = false ∧
    (Instr.wrTick 0 0 true).wf .delayCell = false ∧ (Instr.wrPeek 0).wf .delayCell = false ∧
    (Instr.wrReset 0).wf .delayCell = false ∧ (Instr.ramTick 0 0 0 true).wf (.flatRam 16 6 16) = false ∧
    (Instr.ramPeek 0 0).wf (.flatRam 16 6 16) = false ∧ (Instr.ramReset 0).wf (.flatRam 16 6 16) = false ∧
    (Instr.framTick 0 0 0 true).wf (.memoryNode 16 [3]) = false ∧ (Instr.framPeek 0 0).wf (.memoryNode 16 [3]) = false ∧
    (Instr.framReset 0).wf (.memoryNode 16 [3]) = false := by decide
theorem test_wf_operands : (Instr.wrTick 0 16 true).wf (.wordRegister 4) = false ∧
    (Instr.ramTick 0 65536 0 true).wf (.memoryNode 16 [3]) = false ∧
    (Instr.ramTick 0 0 8 true).wf (.memoryNode 16 [3]) = false ∧ (Instr.ramPeek 0 8).wf (.memoryNode 16 [3]) = false ∧
    (Instr.framTick 0 65536 0 true).wf (.flatRam 16 6 16) = false ∧
    (Instr.framTick 0 0 65536 true).wf (.flatRam 16 6 16) = false ∧
    (Instr.framPeek 0 65536).wf (.flatRam 16 6 16) = false := by decide
/-- V8.6, V8.7, V9: `W = 3` is the nearest width accepted. -/
theorem test_wf_randomize : (Instr.ramRandomize 0).wf (.memoryNode 16 [3, 3]) = false ∧
    (Instr.ramRandomize 0).wf (.memoryNode 2 [3]) = false ∧ (Instr.ramRandomize 0).wf (.memoryNode 3 [3]) = true := by decide

/-! ### One step of each operation -/

/-- V1.2, V1.4. -/
theorem test_dcTick : seen (.dcTick 0 true) (.delayCell ⟨false⟩) 0 = some (some 0, 1) ∧
    seen (.dcTick 0 false) (.delayCell ⟨true⟩) 0 = some (some 1, 0) := by decide
/-- V1.5. -/
theorem test_dcPeek : seen (.dcPeek 0) (.delayCell ⟨true⟩) 0 = some (some 1, 1) := by decide
/-- V1.7. -/
theorem test_dcReset : seen (.dcReset 0) (.delayCell ⟨true⟩) 0 = some (none, 0) := by decide
/-- V2.2, V2.4, V2.5, V2.7. -/
theorem test_lbTick : seen (.lbTick 0 true false) (.loadableBit ⟨⟨false⟩⟩) 0 = some (some 0, 0) ∧
    seen (.lbTick 0 true true) (.loadableBit ⟨⟨false⟩⟩) 0 = some (some 0, 1) ∧
    seen (.lbTick 0 false false) (.loadableBit ⟨⟨true⟩⟩) 0 = some (some 1, 1) ∧
    seen (.lbTick 0 false true) (.loadableBit ⟨⟨true⟩⟩) 0 = some (some 1, 0) := by decide
/-- Rule R91. -/
theorem test_lbPeek : seen (.lbPeek 0) (.loadableBit ⟨⟨true⟩⟩) 0 = some (some 1, 1) := by decide
/-- Rule R92. -/
theorem test_lbReset : seen (.lbReset 0) (.loadableBit ⟨⟨true⟩⟩) 0 = some (none, 0) := by decide
/-- V3.2, V3.5, V3.9, on the bit-array. -/
theorem test_wrTick_bitArray :
    seen (.wrTick 0 0xFFFF false) (.register (.bitArray (bitRegister 16 0x0521))) 0 = some (some 0x0521, 0x0521) ∧
    seen (.wrTick 0 0xAAAA true) (.register (.bitArray (bitRegister 16 0xFFFF))) 0 = some (some 0xFFFF, 0xAAAA) ∧
    seen (.wrTick 0 0x01 true) (.register (.bitArray (bitRegister 8 0x80))) 0 = some (some 0x80, 0x01) := by decide
/-- V3.2, V3.5, V3.9, on the flat register. -/
theorem test_wrTick_flat : seen (.wrTick 0 0xFFFF false) (.register (.flat ⟨16, 0x0521⟩)) 0 = some (some 0x0521, 0x0521) ∧
    seen (.wrTick 0 0xAAAA true) (.register (.flat ⟨16, 0xFFFF⟩)) 0 = some (some 0xFFFF, 0xAAAA) ∧
    seen (.wrTick 0 0x01 true) (.register (.flat ⟨8, 0x80⟩)) 0 = some (some 0x80, 0x01) := by decide
/-- V3.11. -/
theorem test_wrPeek : seen (.wrPeek 0) (.register (.bitArray (bitRegister 16 0x8000))) 0 = some (some 0x8000, 0x8000) ∧
    seen (.wrPeek 0) (.register (.flat ⟨16, 0x8000⟩)) 0 = some (some 0x8000, 0x8000) ∧
    signedValue 16 0x8000 = -32768 := by decide
/-- V3.7. -/
theorem test_wrReset : seen (.wrReset 0) (.register (.bitArray (bitRegister 16 0x5555))) 0 = some (none, 0) ∧
    seen (.wrReset 0) (.register (.flat ⟨16, 0x5555⟩)) 0 = some (none, 0) := by decide
/-- V4.1, V4.2 and V4.3: the register written, and one that is not. -/
theorem test_ramTick_leaf : seen (.ramTick 0 7 5 true) (.memoryNode (leaf [0, 0, 0, 0, 0, 0, 0, 0])) 5 = some (some 0, 7) ∧
    seen (.ramTick 0 9 5 false) (.memoryNode (leaf [0, 0, 0, 0, 0, 7, 0, 0])) 5 = some (some 7, 7) ∧
    seen (.ramTick 0 9 0 true) (.memoryNode (leaf [0, 0, 0, 0, 0, 7, 0, 0])) 5 = some (some 0, 7) := by decide
/-- P1 step 5 and the bit-reversal catcher of V5. -/
theorem test_ramTick_internal : seen (.ramTick 0 43690 13 true) (.memoryNode (ram64 1313 13)) 13 = some (some 1313, 43690) ∧
    seen (.ramTick 0 1 8 true) (.memoryNode (ram64 0 0)) 8 = some (some 0, 1) ∧
    seen (.ramTick 0 1 8 true) (.memoryNode (ram64 0 0)) 32 = some (some 0, 0) ∧
    seen (.ramTick 0 1 8 true) (.memoryNode (ram64 0 0)) 1 = some (some 0, 0) := by decide
/-- S7 and rule R138: the word at address 13 is in `child[1].regs[5]`. -/
theorem test_ramPeek : seen (.ramPeek 0 13) (.memoryNode (ram64 1313 13)) 13 = some (some 1313, 1313) ∧
    seen (.ramPeek 0 0) (.memoryNode (ram64 1313 13)) 0 = some (some 0, 0) ∧
    ((ram64 1313 13).root.registerAt [1, 5]).map WordRegister.val = some 1313 := by decide
/-- V8.1. -/
theorem test_ramReset : seen (.ramReset 0) (.memoryNode (ram64 1313 13)) 13 = some (none, 0) := by decide
/-- V8.4: the leaf holds the draw, whatever it held. -/
theorem test_ramRandomize :
    (match randomizeWith [0x0F0F, 0x0001, 0xFFFF, 0x8000, 0x1234, 0x0000, 0x7FFF, 0x00FF] 0
        (one (.memoryNode (leaf [0, 0, 0xBEEF, 0, 0, 0, 0, 0]))) with
      | .next t => (List.range 8).map (t.view 0)
      | .fault _ => []
      | .refused _ => []) = [0x0F0F, 0x0001, 0xFFFF, 0x8000, 0x1234, 0x0000, 0x7FFF, 0x00FF] := by decide
/-- V8.6, V8.7. -/
theorem test_ramRandomize_refused :
    refusal (.ramRandomize 0) (.memoryNode ⟨2, [3], .zero 2 [3]⟩) = some .noDistinctDraw ∧
    refusal (.ramRandomize 0) (.memoryNode ⟨4, [3, 3], .zero 4 [3, 3]⟩) = some .reservedRandomize := by decide
/-- V6.1, V6.4, V6.6. -/
theorem test_framTick : seen (.framTick 0 1313 77 true) (.flatRam (flat64 [])) 13 = some (some 0, 1313) ∧
    seen (.framTick 0 0 64013 false) (.flatRam (flat64 [(13, 1313)])) 13 = some (some 1313, 1313) ∧
    seen (.framTick 0 5 65535 true) (.flatRam (flat64 [(13, 1313)])) 63 = some (some 0, 5) := by decide
/-- V6.3, V6.8. -/
theorem test_framPeek : seen (.framPeek 0 141) (.flatRam (flat64 [(13, 1313)])) 13 = some (some 1313, 1313) ∧
    seen (.framPeek 0 64) (.flatRam (flat64 [(13, 1313)])) 0 = some (some 0, 0) := by decide
/-- Rule R153. -/
theorem test_framReset : seen (.framReset 0) (.flatRam (flat64 [(13, 1313), (63, 5)])) 13 = some (none, 0) := by decide
/-- Rule R27: writing 0 leaves no entry. -/
theorem test_memory_canonical : Memory.write [(3, 7), (5, 9)] 4 1 = [(3, 7), (4, 1), (5, 9)] ∧
    Memory.write [(3, 7), (4, 1), (5, 9)] 4 0 = [(3, 7), (5, 9)] := by decide

/-! ### The step, the host interface and what stands beside the operations -/

/-- The first step after reset runs the table word's operation on component 0: TICK, PEEK and RESET of the leaf. -/
theorem test_step_from_reset : stepped (State.reset.withFetchWord 8 0x3) 0 = some ([⟨0, 0⟩], [], 0) ∧
    stepped (State.reset.withFetchWord 8 0x0) 0 = some ([⟨0, 0⟩], [], 0) ∧
    stepped (State.reset.withFetchWord 8 0x8) 0 = some ([], [], 0) := by decide
/-- P6 step 1 on the FlatRam, from its command word. -/
theorem test_step_command : stepped ((one (.flatRam (flat64 []))).load [⟨0, 0x3004D0521⟩]) 13 =
    some ([⟨0, 0⟩], [], 1313) := by decide
/-- V7.1 to V7.7. -/
theorem test_routing : dmux 8 true 5 = [false, false, false, false, false, true, false, false] ∧
    dmux 8 false 5 = List.replicate 8 false ∧ dmux 2 true 1 = [false, true] ∧
    dmux 4 true 2 = [false, false, true, false] ∧ mux [10, 11, 12, 13, 14, 15, 16, 17] 5 = 15 ∧ mux [7, 9] 0 = 7 ∧
    mux [7, 9, 11, 13] 3 = 13 := by decide
/-- V7.8, V7.9. -/
theorem test_selectors : lsbFirstIndex [true, false, true] = 5 ∧ msbFirstIndex [false, false, true, true, false, true] = 13 ∧
    lsbFirstIndex (reverseSelector [false, false, true]) = 1 := by decide
/-- V5. -/
theorem test_paths : addressPath [3, 3] 13 = [1, 5] ∧ addressPath [3, 3, 3] 100 = [1, 4, 4] ∧
    addressPath [3, 3, 3, 3] 1313 = [2, 4, 4, 1] ∧ addressPath [1, 3, 3, 3, 3] 4096 = [1, 0, 0, 0, 0] ∧
    addressPath [2, 3, 3, 3, 3] 9999 = [2, 3, 4, 1, 7] ∧ addressPath [3, 3, 3, 3, 3] 28685 = [7, 0, 0, 1, 5] := by decide
/-- Rule R109. -/
theorem test_signed : signedPattern 16 (-21846) = 0xAAAA ∧ signedValue 16 0xAAAA = -21846 := by decide
/-- Rule R184: `rst` wins over a coinciding edge. -/
theorem test_pins_reset_wins :
    (Pins.mk true true 1 true 0).operation 0 .loadableBit = .lbReset 0 ∧
    (Pins.mk true false 1 true 0).operation 0 .loadableBit = .lbTick 0 true true ∧
    (Pins.mk true false 1313 true 13).commandWord (.memoryNode 16 [3, 3]) = 0x0CD0521 := by decide
/-- S7, P1 step 5 and rule R62: trace lines and their command words. -/
theorem test_trace_lines :
    (readLine [['m']] "m.tick 1313, 13, 1 ; -> 0".toList).bind (Line.command [.memoryNode 16 [3, 3]]) =
      some ⟨0, 0x0CD0521⟩ ∧
    (readLine [['m']] "m.tick -21846, 13, 1".toList).bind (Line.command [.memoryNode 16 [3, 3]]) =
      some ⟨0, 0x0CDAAAA⟩ ∧
    (readLine [['m']] "m.tick _, 5, 0".toList).bind (Line.command [.memoryNode 16 [3, 3]]) = some ⟨0, 0x0850000⟩ ∧
    (readLine [['m']] "m.reset".toList).bind (Line.command [.memoryNode 16 [3, 3]]) = some ⟨0, 0x2000000⟩ := by decide
theorem test_trace_hex_and_names :
    (readLine [['a'], ['f']] "f.tick 0x0521, 77, 1".toList).bind (Line.command [.delayCell, .flatRam 16 6 16]) =
      some ⟨1, 0x3004D0521⟩ ∧
    (readLine [['m']] "m.randomize".toList).bind (Line.command [.memoryNode 16 [3, 3]]) = none := by decide
/-- `_` is read for an ignored operand only (rules R62, R70; log 14). -/
theorem test_trace_ignored_operands :
    (readLine [['m']] "m.tick _, 13, 1".toList).bind (Line.command [.memoryNode 16 [3, 3]]) = none ∧
    (readLine [['m']] "m.tick 5, _, 0".toList).bind (Line.command [.memoryNode 16 [3, 3]]) = none ∧
    (readLine [['b']] "b.tick _, 0".toList).bind (Line.command [.loadableBit]) = some ⟨0, 0x04⟩ ∧
    (readLine [['b']] "b.tick _, 1".toList).bind (Line.command [.loadableBit]) = none ∧
    (readLine [['d']] "d.tick _".toList).bind (Line.command [.delayCell]) = none := by decide

/-! ### Witnesses: inputs that meet all the hypotheses of a statement, each clause at a boundary of its range -/

/-- A RAM8 leaf that holds 0 but for the word 65535 at address 7. -/
def fullLeaf : Ram := leaf [0, 0, 0, 0, 0, 0, 0, 65535]

theorem witness_DecodeOfEncodeIsTheOperation : (Instr.dcTick 0 true).wf .delayCell = true ∧
    (Instr.lbTick 0 true true).wf .loadableBit = true ∧ (Instr.wrTick 0 65535 true).wf (.wordRegister 16) = true ∧
    (Instr.wrTick 0 1 true).wf (.flatRegister 1) = true ∧
    (Instr.ramTick 0 65535 32767 true).wf (.memoryNode 16 [3, 3, 3, 3, 3]) = true ∧
    (Instr.framTick 0 65535 65535 true).wf (.flatRam 16 6 16) = true := by decide
theorem witness_DecoderIsTotal :
    (0x1000000 < 2 ^ (Shape.memoryNode 16 [3, 3]).commandWidth ∧
      ctlClass (ctlField (.memoryNode 16 [3, 3]) 0x1000000) = .randomize ∧ (Shape.memoryNode 16 [3, 3]).isLeaf = false) ∧
    (0x7FFFFF < 2 ^ (Shape.memoryNode 16 [3]).commandWidth ∧
      (ctlClass (ctlField (.memoryNode 16 [3]) 0x7FFFFF) = .randomize → (Shape.memoryNode 16 [3]).isLeaf = true)) ∧
    2 ^ (Shape.memoryNode 16 [3]).commandWidth ≤ 0x800000 := by decide
theorem witness_IgnoredBitsDoNotMatter :
    0x00D0000 < 2 ^ (Shape.memoryNode 16 [3, 3]).commandWidth ∧ 0x04DFFFF < 2 ^ (Shape.memoryNode 16 [3, 3]).commandWidth ∧
    ctlClass (ctlField (.memoryNode 16 [3, 3]) 0x00D0000) = .peek ∧
    ctlClass (ctlField (.memoryNode 16 [3, 3]) 0x04DFFFF) = .peek ∧
    addressField (.memoryNode 16 [3, 3]) 0x00D0000 = addressField (.memoryNode 16 [3, 3]) 0x04DFFFF := by decide
theorem witness_StepRunsTheDecodedCommand : ((one (.flatRam (flat64 []))).load [⟨0, 0x3004D0521⟩]).trace = [⟨0, 0x3004D0521⟩] ∧
    ((one (.flatRam (flat64 []))).load [⟨0, 0x3004D0521⟩]).components[0]? = some (.flatRam (flat64 [])) ∧
    decode (Component.flatRam (flat64 [])).shape 0 0x3004D0521 = .ok (.framTick 0 1313 77 true) := by decide
theorem witness_StepWithoutCommandKeepsTheState : (one (.delayCell ⟨true⟩)).trace = [] := by decide
theorem witness_StepRefusesRejectedCommands :
    ((one (.delayCell ⟨true⟩)).load [⟨1, 0⟩]).components[1]? = none ∧
    decode (Component.delayCell ⟨true⟩).shape 0 0b01000 = .error .reservedRandomize ∧
    decode (Component.delayCell ⟨true⟩).shape 0 0b100000 = .error .tooWide ∧
    ((one (.delayCell ⟨true⟩)).load [⟨0, 0b100000⟩]).components[0]? = some (.delayCell ⟨true⟩) := by decide
theorem witness_CreationIsWellFormed : Config.created.all Shape.wf = true := by decide
theorem witness_ResetLeavesTheComponentAsCreated :
    [Component.delayCell ⟨true⟩, .loadableBit ⟨⟨true⟩⟩, .register (.bitArray (bitRegister 4 15)), .register (.flat ⟨4, 15⟩),
      .memoryNode (ram64 1313 13), .flatRam (flat64 [(63, 65535)])].all
      (fun c => c.wf && (one c).components[0]? == some c) = true ∧
    (Component.register (.flat ⟨4, 15⟩)).shape.isRegister = true ∧
    (Component.memoryNode (ram64 1313 13)).shape.isMemoryNode = true ∧
    (Component.flatRam (flat64 [(63, 65535)])).shape.isFlatRam = true := by decide
theorem witness_PeekAfterResetIsZero :
    (Component.memoryNode (ram64 1313 13)).wf = true ∧ 63 < 2 ^ (Component.memoryNode (ram64 1313 13)).shape.addressFieldWidth ∧
    (Component.flatRam (flat64 [(63, 65535)])).wf = true ∧
    65535 < 2 ^ (Component.flatRam (flat64 [(63, 65535)])).shape.addressFieldWidth := by decide
theorem witness_delayCell : ∀ q : Bit, (one (.delayCell ⟨q⟩)).components[0]? = some (.delayCell ⟨q⟩) := by decide
/-- For DelayCellTick, DelayCellPeek, DelayCellReset and DelayCellLatency. -/
theorem witness_DelayCellLatency : (one (.delayCell ⟨false⟩)).components[0]? = some (.delayCell ⟨false⟩) :=
  witness_delayCell false
/-- For LoadableBitTick, LoadableBitPeekAndReset and LoadableBitVisibilityDelay. -/
theorem witness_LoadableBitTick : (one (.loadableBit ⟨⟨true⟩⟩)).components[0]? = some (.loadableBit ⟨⟨true⟩⟩) := by decide
theorem witness_EnabledLoadableBitIsADelayCell :
    (one (.loadableBit ⟨⟨true⟩⟩)).components[0]? = some (.loadableBit ⟨⟨true⟩⟩) ∧
    (one (.delayCell ⟨true⟩)).components[0]? = some (.delayCell ⟨true⟩) ∧
    (one (.loadableBit ⟨⟨true⟩⟩)).returned = (one (.delayCell ⟨true⟩)).returned := by decide
/-- For WordRegisterTick and WordRegisterPeekAndReset. -/
theorem witness_WordRegisterTick :
    (one (.register (.bitArray (bitRegister 16 1313)))).components[0]? = some (.register (.bitArray (bitRegister 16 1313))) ∧
    65535 < 2 ^ (bitRegister 16 1313).bits.length := by decide
theorem witness_FlatRegisterOperations : (one (.register (.flat ⟨16, 1313⟩))).components[0]? =
    some (.register (.flat ⟨16, 1313⟩)) ∧ 65535 < 2 ^ (FlatRegister.mk 16 1313).width := by decide
theorem witness_RegisterLaw : (one (.register (.flat ⟨4, 9⟩))).components[0]? = some (.register (.flat ⟨4, 9⟩)) ∧
    ∀ t ∈ [(15, true), (0, false)], t.1 < 2 ^ (Register.flat ⟨4, 9⟩).width := by decide
theorem witness_BitArrayAndFlatRegistersAgree :
    (one (.register (.bitArray (bitRegister 4 9)))).components[0]? = some (.register (.bitArray (bitRegister 4 9))) ∧
    (one (.register (.flat ⟨4, 9⟩))).components[0]? =
      some (.register (.flat ⟨(bitRegister 4 9).bits.length, (bitRegister 4 9).val⟩)) ∧
    (one (.register (.bitArray (bitRegister 4 9)))).returned = (one (.register (.flat ⟨4, 9⟩))).returned ∧
    [RegisterOp.tick 15 true, .peek, .reset].all (RegisterOp.typed (bitRegister 4 9).bits.length) = true := by decide
theorem witness_SignedValueRoundTrip : (one (.register (.flat ⟨4, 9⟩))).components[0]? = some (.register (.flat ⟨4, 9⟩)) ∧
    1 ≤ (Register.flat ⟨4, 9⟩).width ∧ -(2 ^ ((Register.flat ⟨4, 9⟩).width - 1)) ≤ (-8 : Int) ∧
    (7 : Int) < 2 ^ ((Register.flat ⟨4, 9⟩).width - 1) := by decide
/-- For MemoryLaw, RamPeekAndReset, TickChangesOneRegister, PathLeadsToTheAddressedRegister, DisabledTickHolds, TreeReadsBeforeItWrites and
the tree clauses of PseudoOperations, on a tree and on a FlatRam at the last address. -/
theorem witness_MemoryLaw :
    ((one (.memoryNode (ram64 1313 13))).components[0]? = some (.memoryNode (ram64 1313 13)) ∧
      (Component.memoryNode (ram64 1313 13)).wf = true ∧ 65535 < 2 ^ (ram64 1313 13).width ∧
      63 < 2 ^ (ram64 1313 13).addressWidth) ∧
    (one (.flatRam (flat64 [(63, 65535)]))).components[0]? = some (.flatRam (flat64 [(63, 65535)])) ∧
    (Component.flatRam (flat64 [(63, 65535)])).wf = true ∧ 65535 < 2 ^ (flat64 [(63, 65535)]).width ∧
    63 < 2 ^ (flat64 [(63, 65535)]).addressWidth := by decide
theorem witness_LeafTick : (one (.memoryNode fullLeaf)).components[0]? = some (.memoryNode ⟨16, [3], fullLeaf.root⟩) ∧
    ([0, 0, 0, 0, 0, 0, 0, 65535].map (bitRegister 16)).length = 8 ∧
    (∀ r ∈ [0, 0, 0, 0, 0, 0, 0, 65535].map (bitRegister 16), r.bits.length = 16) ∧
    ([0, 0, 0, 0, 0, 0, 0, 65535].map (bitRegister 16))[7]? = some (bitRegister 16 65535) ∧ 65535 < 2 ^ 16 := by decide
theorem witness_InternalNodeTicksEveryChild :
    (Children.ofList (List.replicate 8 (MemoryNode.zero 4 [3]))).toList.length = 2 ^ 3 ∧ 63 < 2 ^ (3 + [3].sum) := by decide
theorem witness_ControlClassesPartition : 0 < 16 ∧ 15 < 16 := by decide
theorem witness_FanOutSchedule : 3 ≤ [3].sum ∧ schedOk (Config.sched 3) = true ∧ schedOk (Config.sched 16) = true := by decide
theorem witness_PathFormulas : 7 < 8 ∧ 63 < 64 ∧ 511 < 512 ∧ 4095 < 4096 ∧ 8191 < 8192 ∧ 16383 < 16384 ∧ 32767 < 32768 := by
  decide
theorem witness_NodeHoldsCapacityRegisters : (ram64 1313 13).root.wf 16 [3, 3] = true := by decide
/-- For RandomizeOverwritesTheLeaf and RandomizeWithAnyDraw, at `W = 3`, where the draw is a permutation (V9). -/
theorem witness_RandomizeWithAnyDraw :
    (one (.memoryNode ⟨3, [3], .zero 3 [3]⟩)).components[0]? = some (.memoryNode ⟨3, [3], .zero 3 [3]⟩) ∧
    (Component.memoryNode ⟨3, [3], .zero 3 [3]⟩).wf = true ∧ (Ram.mk 3 [3] (.zero 3 [3])).addressWidth = 3 ∧
    [7, 1, 2, 3, 4, 5, 6, 0].length = 8 ∧ [7, 1, 2, 3, 4, 5, 6, 0].Nodup ∧
    ∀ w ∈ [7, 1, 2, 3, 4, 5, 6, 0], w < 2 ^ 3 := by decide
theorem witness_RandomizeRefusedElsewhere :
    ((Component.memoryNode (ram64 1313 13)).shape.isMemoryNode = true ∧
      (Component.memoryNode (ram64 1313 13)).shape.isLeaf = false ∧ (Component.memoryNode (ram64 1313 13)).wf = true) ∧
    ((Component.memoryNode ⟨2, [3], .zero 2 [3]⟩).shape.isLeaf = true ∧
      (Component.memoryNode ⟨2, [3], .zero 2 [3]⟩).shape.inWidth < 3 ∧
      (Component.memoryNode ⟨2, [3], .zero 2 [3]⟩).wf = true) ∧
    (Component.flatRam (flat64 [])).shape.isMemoryNode = false ∧ (Component.flatRam (flat64 [])).wf = true := by decide
theorem witness_DrawnWordsAreDistinct : (List.replicate 8 5).length ≤ 2 ^ 3 := by decide
theorem witness_EveryInjectiveDrawComesOut : [7, 1, 2, 3, 4, 5, 6, 0].Nodup ∧ ∀ w ∈ [7, 1, 2, 3, 4, 5, 6, 0], w < 2 ^ 3 := by
  decide
/-- For FlatRamTick, FlatRamPeekAndReset, FlatAddressesWrap and the FlatRam clauses of PseudoOperations, at the port's last
address. -/
theorem witness_FlatRamTick :
    (one (.flatRam (flat64 [(63, 65535)]))).components[0]? = some (.flatRam (flat64 [(63, 65535)])) ∧
    (Component.flatRam (flat64 [(63, 65535)])).wf = true ∧ 65535 < 2 ^ (flat64 [(63, 65535)]).width ∧
    65535 < 2 ^ (flat64 [(63, 65535)]).portWidth := by decide
theorem witness_TreeAndFlatRamAgree :
    (one (.memoryNode (ram64 1313 13))).components[0]? = some (.memoryNode (ram64 1313 13)) ∧
    (one (.flatRam (flat64 [(13, 1313)]))).components[0]? = some (.flatRam (flat64 [(13, 1313)])) ∧
    (Component.memoryNode (ram64 1313 13)).wf = true ∧ (Component.flatRam (flat64 [(13, 1313)])).wf = true ∧
    (flat64 [(13, 1313)]).width = (ram64 1313 13).width ∧
    (flat64 [(13, 1313)]).addressWidth = (ram64 1313 13).addressWidth ∧
    (∀ a < 2 ^ (ram64 1313 13).addressWidth, (flat64 [(13, 1313)]).view a = (ram64 1313 13).view a) ∧
    (one (.memoryNode (ram64 1313 13))).returned = (one (.flatRam (flat64 [(13, 1313)]))).returned ∧
    [RamOp.tick 65535 65535 true, .peek 63, .reset].all
      (RamOp.typed (ram64 1313 13).width (flat64 [(13, 1313)]).portWidth) = true := by decide
theorem witness_RoutingPrimitives : 7 < 8 ∧ 7 < [10, 11, 12, 13, 14, 15, 16, 17].length := by decide
/-- For OperationsRunExactlyWhereTyped and OperationTouchesOneComponent: a state where the operation runs. -/
theorem witness_OperationsRunExactlyWhereTyped :
    (one (.flatRam (flat64 []))).components[(Instr.framTick 0 5 65535 true).component]? = some (.flatRam (flat64 [])) ∧
    (Component.flatRam (flat64 [])).wf = true ∧ seen (.framTick 0 5 65535 true) (.flatRam (flat64 [])) 63 = some (some 0, 5) := by
  decide
theorem witness_UntypedOperandsAreRefused :
    refusal (.ramTick 0 65536 0 true) (.memoryNode (ram64 0 0)) = some .operandNotTyped ∧
    refusal (.ramPeek 0 64) (.memoryNode (ram64 0 0)) = some .operandNotTyped ∧
    refusal (.wrTick 0 16 true) (.register (.flat ⟨4, 9⟩)) = some .operandNotTyped ∧
    refusal (.framTick 0 0 65536 true) (.flatRam (flat64 [])) = some .operandNotTyped ∧
    refusal (.framPeek 0 65536) (.flatRam (flat64 [])) = some .operandNotTyped := by decide
/-- For StepKeepsWellFormedness and StepKeepsTheStructure: a state that meets the invariant and steps. -/
theorem witness_StepKeepsWellFormedness : ((one (.flatRam (flat64 []))).load [⟨0, 0x3004D0521⟩]).wf = true ∧
    stepped ((one (.flatRam (flat64 []))).load [⟨0, 0x3004D0521⟩]) 13 = some ([⟨0, 0⟩], [], 1313) := by decide
/-- For OnlyWritersChangeAWord and ReadReturnsTheMostRecentWrite: the last address of a FlatRam and of a RAM64, and
operations that do not write it; the write or reset and then the operations complete. -/
theorem witness_ReadReturnsTheMostRecentWrite :
    (one (.flatRam (flat64 [(63, 65535)]))).wf = true ∧ 63 < (Component.flatRam (flat64 [(63, 65535)])).locations ∧
    65535 < 2 ^ (Component.flatRam (flat64 [(63, 65535)])).shape.inWidth ∧
    [Instr.framTick 0 5 62 true, .framTick 0 5 127 false, .framPeek 0 127].all
      (fun i => !writes (Component.flatRam (flat64 [(63, 65535)])).shape 0 63 i) = true ∧
    (one (.memoryNode (ram64 1313 13))).wf = true ∧ 63 < (Component.memoryNode (ram64 1313 13)).locations ∧
    [Instr.ramTick 0 5 62 true, .ramTick 0 5 63 false, .ramPeek 0 63].all
      (fun i => !writes (Component.memoryNode (ram64 1313 13)).shape 0 63 i) = true ∧
    completes [.framTick 0 65535 63 true, .framTick 0 5 62 true, .framTick 0 5 127 false, .framPeek 0 127]
      (.flatRam (flat64 [(63, 65535)])) = true ∧
    completes [.framReset 0, .framTick 0 5 62 true, .framTick 0 5 127 false, .framPeek 0 127]
      (.flatRam (flat64 [(63, 65535)])) = true ∧
    completes [.ramTick 0 65535 63 true, .ramTick 0 5 62 true, .ramTick 0 5 63 false, .ramPeek 0 63]
      (.memoryNode (ram64 1313 13)) = true ∧
    completes [.ramReset 0, .ramTick 0 5 62 true, .ramTick 0 5 63 false, .ramPeek 0 63]
      (.memoryNode (ram64 1313 13)) = true := by decide
theorem witness_SameViewsAreIndistinguishable : (one (.flatRam (flat64 [(63, 65535)]))).wf = true ∧
    (one (.flatRam (flat64 [(63, 65535)]))).components.map Component.shape =
      (State.mk [.flatRam (flat64 [(63, 65535)])] [⟨0, 0⟩] [] 4).components.map Component.shape ∧
    (State.mk [.flatRam (flat64 [(63, 65535)])] [⟨0, 0⟩] [] 4).wf = true ∧
    (∀ i ∈ [Instr.framTick 0 5 62 true, .framReset 0], i ≠ .ramRandomize i.component) ∧
    completes [.framTick 0 5 62 true, .framReset 0] (.flatRam (flat64 [(63, 65535)])) = true := by decide
/-- For DisabledInputDoesNotMatter and ReadsHaveNoSideEffect. -/
theorem witness_ReadsHaveNoSideEffect :
    (Component.register (.bitArray (bitRegister 4 9))).wf = true ∧
    15 < 2 ^ (Component.register (.bitArray (bitRegister 4 9))).shape.inWidth ∧
    (Component.loadableBit ⟨⟨true⟩⟩).wf = true ∧ 1 < 2 ^ (Component.loadableBit ⟨⟨true⟩⟩).shape.inWidth ∧
    (Component.memoryNode (ram64 1313 13)).wf = true ∧
    65535 < 2 ^ (Component.memoryNode (ram64 1313 13)).shape.inWidth ∧
    63 < 2 ^ (Component.memoryNode (ram64 1313 13)).shape.addressFieldWidth ∧
    65535 < 2 ^ (Component.flatRam (flat64 [])).shape.addressFieldWidth := by decide
theorem witness_PinsAskForTheOperation :
    (one (.memoryNode (ram64 1313 13))).components[0]? = some (.memoryNode (ram64 1313 13)) ∧
    (Component.memoryNode (ram64 1313 13)).wf = true ∧
    (Pins.mk true false 65535 true 63).input < 2 ^ (Component.memoryNode (ram64 1313 13)).shape.inWidth ∧
    (Pins.mk true false 65535 true 63).address < 2 ^ (Component.memoryNode (ram64 1313 13)).shape.addressFieldWidth := by decide

end Sys2Proof.Tests
end

section
/-! PROOFS. The state's structure: the counts of a node (rules R26, R28) and the frame of every operation (rules R21,
R34). -/

namespace Sys2Proof.Machine

/-- A node of capacity `C = 2^A` has `C` registers. -/
theorem MemoryNode.registers_length {width : Nat} (sched : List Nat) {n : MemoryNode}
    (h : n.wf width sched = true) : (n.registers sched).length = 2 ^ sched.sum := by
  induction sched generalizing n with
  | nil => rcases MemoryNode.wf_cases h with ⟨_, hs, _⟩ | ⟨_, _, _, _, hs, _⟩ <;> cases hs
  | cons s rest ih =>
    rcases MemoryNode.wf_cases h with ⟨regs, hs, rfl, hlen, _⟩ | ⟨_, _, _, children, hs, rfl, hlen, hc⟩
    · obtain ⟨rfl, rfl⟩ := List.cons.inj hs
      exact hlen
    · obtain ⟨rfl, rfl⟩ := List.cons.inj hs
      rw [MemoryNode.registers, List.length_flatMap, List.map_congr_left fun c hcm => ih (hc c hcm),
        List.map_const', List.sum_replicate, smul_eq_mul, hlen, ← pow_add, List.sum_cons (a := s)]

/-- Every register of a node has the node's word width. -/
theorem MemoryNode.registers_width {width : Nat} (sched : List Nat) {n : MemoryNode}
    (h : n.wf width sched = true) : ∀ r ∈ n.registers sched, r.bits.length = width := by
  induction sched generalizing n with
  | nil => rcases MemoryNode.wf_cases h with ⟨_, hs, _⟩ | ⟨_, _, _, _, hs, _⟩ <;> cases hs
  | cons s rest ih =>
    rcases MemoryNode.wf_cases h with ⟨regs, _, rfl, _, hw⟩ | ⟨_, _, _, children, hs, rfl, _, hc⟩
    · exact hw
    · obtain ⟨rfl, rfl⟩ := List.cons.inj hs
      intro r hr
      obtain ⟨c, hcm, hrc⟩ := List.mem_flatMap.mp hr
      exact ih (hc c hcm) r hrc

/-- Registers of one width own `width` cells each. -/
theorem MemoryNode.cellCount_eq {width : Nat} (sched : List Nat) {n : MemoryNode}
    (h : n.wf width sched = true) : n.cellCount sched = (n.registers sched).length * width := by
  rw [MemoryNode.cellCount, List.map_congr_left (MemoryNode.registers_width sched h), List.map_const',
    List.sum_replicate, smul_eq_mul]

/-- Settles O37: both counts by induction on the schedule; `2^S` children of `2^(A-S)` registers each. -/
theorem nodeHoldsCapacityRegisters : Obligations.NodeHoldsCapacityRegisters := by
  intro width sched n h
  have hregs := MemoryNode.registers_length sched h
  exact ⟨hregs, by rw [MemoryNode.cellCount_eq sched h, hregs]⟩

/-- An operation keeps every component's structure, the named one's included, and the number of components. -/
theorem exec_shapes {i : Instr} {s t : State} (h : exec i s = .next t) :
    t.components.map Component.shape = s.components.map Component.shape := by
  obtain ⟨c, c', _, hc, hcomp, _, _, hp⟩ := exec_next h
  have hself : (s.components.map Component.shape)[i.component]? = some c'.shape := by
    rw [List.getElem?_map, hc, Option.map_some, hp.shape]
  rw [hcomp, List.map_set, set_self hself]

/-- Settles O52: a step keeps the state or performs one operation, and an operation keeps every shape. -/
theorem stepKeepsTheStructure : Obligations.StepKeepsTheStructure := by
  intro s t h
  rcases step_next h with ⟨_, rfl⟩ | ⟨_, _, _, _, _, _, _, hexec⟩
  · rfl
  · exact (exec_shapes hexec :)

/-- What a `randomize` that completes leaves: one more draw counted, the leaf's registers overwritten, no word
returned. -/
theorem randomizeWith_next {r : List Nat} {m : Nat} {s t : State} (h : randomizeWith r m s = .next t) :
    ∃ ram regs, s.components[m]? = some (.memoryNode ram) ∧ ram.root = .leaf regs ∧ 3 ≤ ram.width ∧
      t = { s with draws := s.draws + 1 }.commit m
        (.memoryNode { ram with root := .leaf (randomizeRegisters r regs) }) none := by
  obtain ⟨ram, hram, hk⟩ := State.onRam_next h
  split at hk
  · cases hk
  · rename_i regs hroot
    split at hk
    · rename_i hwidth
      cases hk
      exact ⟨ram, regs, hram, hroot, hwidth, rfl⟩
    · cases hk

/-- A `reset` or `randomize` returns no word (rule R60). -/
theorem exec_returned_of_reset {i : Instr} {m : Nat} {s t : State} (h : exec i s = .next t)
    (hi : i = .dcReset m ∨ i = .lbReset m ∨ i = .wrReset m ∨ i = .ramReset m ∨ i = .framReset m ∨
      i = .ramRandomize m) : t.returned = s.returned := by
  rcases hi with rfl | rfl | rfl | rfl | rfl | rfl
  · obtain ⟨_, _, hk⟩ := State.onDelayCell_next h
    cases hk; rfl
  · obtain ⟨_, _, hk⟩ := State.onLoadableBit_next h
    cases hk; rfl
  · obtain ⟨_, _, hk⟩ := State.onRegister_next h
    cases hk; rfl
  · obtain ⟨_, _, hk⟩ := State.onRam_next h
    cases hk; rfl
  · obtain ⟨_, _, hk⟩ := State.onFlatRam_next h
    cases hk; rfl
  · obtain ⟨_, _, _, _, _, rfl⟩ := randomizeWith_next h
    rfl

/-- Only a `randomize` draws (log 3). -/
theorem exec_draws {i : Instr} {s t : State} (h : exec i s = .next t) (hi : i ≠ .ramRandomize i.component) :
    t.draws = s.draws := by
  cases i with
  | dcTick | dcPeek | dcReset =>
    obtain ⟨_, _, hk⟩ := State.onDelayCell_next h
    cases hk; rfl
  | lbTick | lbPeek | lbReset =>
    obtain ⟨_, _, hk⟩ := State.onLoadableBit_next h
    cases hk; rfl
  | wrTick =>
    obtain ⟨_, _, hk⟩ := State.onRegister_next h
    cases (whenTyped_next hk).2; rfl
  | wrPeek | wrReset =>
    obtain ⟨_, _, hk⟩ := State.onRegister_next h
    cases hk; rfl
  | ramTick | ramPeek =>
    obtain ⟨_, _, hk⟩ := State.onRam_next h
    cases (whenTyped_next hk).2; rfl
  | ramReset =>
    obtain ⟨_, _, hk⟩ := State.onRam_next h
    cases hk; rfl
  | ramRandomize m => exact absurd rfl hi
  | framTick | framPeek =>
    obtain ⟨_, _, hk⟩ := State.onFlatRam_next h
    cases (whenTyped_next hk).2; rfl
  | framReset =>
    obtain ⟨_, _, hk⟩ := State.onFlatRam_next h
    cases hk; rfl

/-- Settles O53: the components, the trace and the words by what an operation can do at all (`exec_next`); what `reset`
returns and what draws, operation by operation. -/
theorem operationTouchesOneComponent : Obligations.OperationTouchesOneComponent := by
  intro s t i h
  obtain ⟨c, c', out, _, hcomp, hret, htrace, _⟩ := exec_next h
  refine ⟨fun m hm => ?_, htrace, ?_, exec_returned_of_reset h, exec_draws h⟩
  · rw [hcomp, List.getElem?_set_ne hm.symm]
  · cases out with
    | none => exact .inl hret
    | some w => exact .inr ⟨w, hret⟩

end Sys2Proof.Machine
end

section
/-! PROOFS. What a host sees of a component: lookups and views after an update of the state, and the components that a
view determines (rules R34, R41). -/

namespace Sys2Proof.Machine

/-- The word at a location is the named component's own. -/
theorem State.view_of_some {s : State} {m : Nat} {c : Component} (h : s.components[m]? = some c) (a : Nat) :
    s.view m a = c.view a := by
  rw [State.view, h]

/-- A component that did not change holds the same words. -/
theorem State.view_congr {s t : State} {m : Nat} (h : t.components[m]? = s.components[m]?) (a : Nat) :
    t.view m a = s.view m a := by
  rw [State.view, State.view, h]

/-- The invariant, for one component. -/
theorem State.wf_component {s : State} {m : Nat} {c : Component} (hs : s.wf = true) (h : s.components[m]? = some c) :
    c.wf = true := by
  rw [State.wf, Bool.and_eq_true, List.all_eq_true] at hs
  exact hs.1 c (List.mem_of_getElem? h)

/-- After an operation on an existing component, the words there are those of the component's next state. -/
theorem State.commit_view {s : State} {m : Nat} {c : Component} (h : s.components[m]? = some c) (c' : Component)
    (out : Option Nat) (a : Nat) : (s.commit m c' out).view m a = c'.view a := by
  obtain ⟨hm, _⟩ := List.getElem?_eq_some_iff.mp h
  exact State.view_of_some (List.getElem?_set_self hm) a

/-- Committing the component as it was is only reading. -/
theorem State.commit_self {s : State} {m : Nat} {c : Component} (h : s.components[m]? = some c) (w : Nat) :
    s.commit m c (some w) = s.emit m w := by
  simp only [State.commit, State.emit, set_self h, Option.map_some, Option.toList_some, List.singleton_append]

/-- The address port of a FlatRam names every location (`AW >= A`, rule R150). -/
theorem FlatRam.capacity_le_port {r : FlatRam} (hw : (Component.flatRam r).wf = true) :
    r.capacity ≤ 2 ^ r.portWidth := by
  obtain ⟨hshape, _, _⟩ := FlatRam.wf_iff.mp hw
  simp only [Shape.wf, Bool.and_eq_true, decide_eq_true_eq] at hshape
  exact Nat.pow_le_pow_right (by omega) hshape.2

/-- A reset FlatRam holds 0 everywhere (rule R153). -/
theorem FlatRam.reset_view (r : FlatRam) (a : Nat) : r.reset.view a = 0 := rfl

/-- Nothing is listed past a typed memory's capacity. -/
theorem Memory.read_of_capacity_le {width capacity : Nat} {m : Memory} (h : m.within width capacity = true) {a : Nat}
    (ha : capacity ≤ a) : m.read a = 0 := by
  induction m with
  | nil => rfl
  | cons p m ih =>
    obtain ⟨b, w⟩ := p
    simp only [Memory.within, List.all_cons, Bool.and_eq_true, decide_eq_true_eq] at h
    obtain ⟨⟨hb, _⟩, hm⟩ := h
    rw [Memory.read, if_neg (by omega)]
    exact ih hm

theorem bitWord_injective {x y : Bit} (h : bitWord x = bitWord y) : x = y := by
  revert h; cases x <;> cases y <;> decide

/-- A register is determined by its structure and its value (rules R24, R25). -/
theorem Register.eq_of_val {r d : Register} (hs : (Component.register r).shape = (Component.register d).shape)
    (hv : r.val = d.val) : r = d := by
  cases r with
  | bitArray r =>
    cases d with
    | bitArray d => exact congrArg _ (WordRegister.eq_of_val (Shape.wordRegister.inj hs) hv)
    | flat d => cases hs
  | flat r =>
    cases d with
    | bitArray d => cases hs
    | flat d =>
      obtain ⟨width, value⟩ := r
      obtain rfl : width = d.width := Shape.flatRegister.inj hs
      exact congrArg (fun w => Register.flat ⟨d.width, w⟩) hv

/-- A tree is determined by its structure and its view (rules R20, R41). -/
theorem Ram.eq_of_view {r d : Ram} (hr : (Component.memoryNode r).wf = true) (hd : (Component.memoryNode d).wf = true)
    (hs : (Component.memoryNode r).shape = (Component.memoryNode d).shape)
    (hv : ∀ a < 2 ^ r.addressWidth, r.view a = d.view a) : r = d := by
  obtain ⟨width, sched, root⟩ := r
  obtain ⟨_, _, root'⟩ := d
  obtain ⟨rfl, rfl⟩ := Shape.memoryNode.inj hs
  obtain rfl : root = root' := MemoryNode.eq_of_view sched (Ram.wf_iff.mp hr).2 (Ram.wf_iff.mp hd).2 hv
  rfl

/-- A FlatRam is determined by its structure and its view: its memory is canonical and lists nothing past `C` (rules
R27, R41). -/
theorem FlatRam.eq_of_view {r d : FlatRam} (hr : (Component.flatRam r).wf = true) (hd : (Component.flatRam d).wf = true)
    (hs : (Component.flatRam r).shape = (Component.flatRam d).shape)
    (hv : ∀ a < r.capacity, r.view a = d.view a) : r = d := by
  obtain ⟨width, addressWidth, portWidth, mem⟩ := r
  obtain ⟨_, _, _, mem'⟩ := d
  obtain ⟨rfl, rfl, rfl⟩ := Shape.flatRam.inj hs
  obtain ⟨_, hmem, hin⟩ := FlatRam.wf_iff.mp hr
  obtain ⟨_, hmem', hin'⟩ := FlatRam.wf_iff.mp hd
  obtain rfl : mem = mem' := Memory.ext_read hmem hmem' fun a => by
    rcases Nat.lt_or_ge a (2 ^ addressWidth) with ha | ha
    · exact hv a ha
    · rw [Memory.read_of_capacity_le hin ha, Memory.read_of_capacity_le hin' ha]
  rfl

/-- A component is determined by its structure and its view: no other state is hidden in it (rules R20, R41). -/
theorem Component.eq_of_view {c d : Component} (hc : c.wf = true) (hd : d.wf = true) (hs : c.shape = d.shape)
    (hv : ∀ a < c.locations, c.view a = d.view a) : c = d := by
  cases c with
  | delayCell c =>
    cases d with
    | delayCell d => exact congrArg (fun q => Component.delayCell ⟨q⟩) (bitWord_injective (hv 0 Nat.one_pos))
    | register d => cases d <;> cases hs
    | loadableBit | memoryNode | flatRam => cases hs
  | loadableBit b =>
    cases d with
    | loadableBit d => exact congrArg (fun q => Component.loadableBit ⟨⟨q⟩⟩) (bitWord_injective (hv 0 Nat.one_pos))
    | register d => cases d <;> cases hs
    | delayCell | memoryNode | flatRam => cases hs
  | register r =>
    cases d with
    | register d => exact congrArg _ (Register.eq_of_val hs (hv 0 Nat.one_pos))
    | delayCell | loadableBit | memoryNode | flatRam => cases r <;> cases hs
  | memoryNode r =>
    cases d with
    | memoryNode d => exact congrArg _ (Ram.eq_of_view hc hd hs hv)
    | register d => cases d <;> cases hs
    | delayCell | loadableBit | flatRam => cases hs
  | flatRam r =>
    cases d with
    | flatRam d => exact congrArg _ (FlatRam.eq_of_view hc hd hs hv)
    | register d => cases d <;> cases hs
    | delayCell | loadableBit | memoryNode => cases hs

end Sys2Proof.Machine
end

section
/-! PROOFS. The memory law of both RAMs, reads without side effect, and the refusal of untyped operands (rules R42, R46,
R48). -/

namespace Sys2Proof.Machine

theorem Word.fits_eq_false {n v : Nat} (h : 2 ^ n ≤ v) : Word.fits n v = false := by
  simp [Word.fits, h]

/-- Settles O50: the operation finds its component, and there the failed check of an operand is the answer. -/
theorem untypedOperandsAreRefused : Obligations.UntypedOperandsAreRefused := by
  refine ⟨fun s m r v a we hr h => ?_, fun s m r a hr ha => ?_, fun s m r v we hr hv => ?_,
    fun s m r v a we hr h => ?_, fun s m r a hr ha => ?_⟩
  · rw [exec, execRamTick, State.onRam_some hr]
    rcases h with hv | ha
    · rw [Word.fits_eq_false hv, Bool.false_and, whenTyped_false]
    · rw [Word.fits_eq_false ha, Bool.and_false, whenTyped_false]
  · rw [exec, execRamPeek, State.onRam_some hr, Word.fits_eq_false ha, whenTyped_false]
  · rw [exec, execWrTick, State.onRegister_some hr, Word.fits_eq_false hv, whenTyped_false]
  · rw [exec, execFramTick, State.onFlatRam_some hr]
    rcases h with hv | ha
    · rw [Word.fits_eq_false hv, Bool.false_and, whenTyped_false]
    · rw [Word.fits_eq_false ha, Bool.and_false, whenTyped_false]
  · rw [exec, execFramPeek, State.onFlatRam_some hr, Word.fits_eq_false ha, whenTyped_false]

/-- A tree tick with its returned word by the memory law (rule R129). -/
theorem exec_ramTick_view {s : State} {m : Nat} {r : Ram} (h : s.components[m]? = some (.memoryNode r))
    (hw : (Component.memoryNode r).wf = true) {v a : Nat} (hv : v < 2 ^ r.width) (ha : a < 2 ^ r.addressWidth)
    (we : Bit) :
    exec (.ramTick m v a we) s = .next (s.commit m (.memoryNode (r.tick v a we).2) (some (r.view a))) := by
  rw [exec_ramTick h hv ha, Ram.tick_fst hw]

/-- A FlatRam tick at an address of the RAM needs no wrap (rule R154). -/
theorem exec_framTick_view {s : State} {m : Nat} {r : FlatRam} (h : s.components[m]? = some (.flatRam r))
    (hw : (Component.flatRam r).wf = true) {v a : Nat} (hv : v < 2 ^ r.width) (ha : a < r.capacity) (we : Bit) :
    exec (.framTick m v a we) s = .next (s.commit m (.flatRam (r.tick v a we).2) (some (r.view a))) := by
  rw [exec_framTick h hv (Nat.lt_of_lt_of_le ha (FlatRam.capacity_le_port hw)), FlatRam.location_of_lt ha]

theorem exec_framPeek_view {s : State} {m : Nat} {r : FlatRam} (h : s.components[m]? = some (.flatRam r))
    (hw : (Component.flatRam r).wf = true) {a : Nat} (ha : a < r.capacity) :
    exec (.framPeek m a) s = .next (s.emit m (r.view a)) := by
  rw [exec_framPeek h (Nat.lt_of_lt_of_le ha (FlatRam.capacity_le_port hw)), FlatRam.location_of_lt ha]

/-- Settles O27: the meanings give the whole next states; the views after them are the component laws
`Ram.tick_view`, `FlatRam.tick_view` and those of `reset`. -/
theorem memoryLaw : Obligations.MemoryLaw := by
  constructor
  · intro s m r v a we hr hw hv ha
    refine ⟨⟨(r.tick v a we).2, exec_ramTick_view hr hw hv ha we, rfl, rfl, ?_, fun b hb => ?_⟩, exec_ramPeek hr ha,
      r.reset, exec_ramReset hr, rfl, rfl, Ram.reset_view hw⟩
    · simp [Ram.tick_view hw hv ha]
    · simp [Ram.tick_view hw hv ha, hb]
  · intro s m r v a we hr hw hv ha
    have hloc : r.location a = a := FlatRam.location_of_lt ha
    refine ⟨⟨(r.tick v a we).2, exec_framTick_view hr hw hv ha we, FlatRam.tick_width v a we r,
      FlatRam.tick_addressWidth v a we r, FlatRam.tick_portWidth v a we r, ?_, fun b hb => ?_⟩,
      exec_framPeek_view hr hw ha, r.reset, exec_framReset hr, rfl, rfl, rfl, r.reset_view⟩
    · simp [FlatRam.tick_view hw, hloc]
    · simp [FlatRam.tick_view hw, hloc, hb]

/-- A disabled tick only reads: it commits the component as it was (rules R46, R93, R131). -/
theorem exec_lbTick_disabled {s : State} {m : Nat} {b : LoadableBit} (h : s.components[m]? = some (.loadableBit b))
    (x : Bit) : exec (.lbTick m x false) s = .next (s.emit m (bitWord b.cell.q)) := by
  rw [exec_lbTick h]
  exact congrArg _ (State.commit_self h _)

theorem exec_wrTick_disabled {s : State} {m : Nat} {r : Register} (h : s.components[m]? = some (.register r)) {v : Nat}
    (hv : v < 2 ^ r.width) : exec (.wrTick m v false) s = .next (s.emit m r.val) := by
  rw [exec_wrTick h hv, Register.tick_hold, State.commit_self h]

theorem exec_ramTick_disabled {s : State} {m : Nat} {r : Ram} (h : s.components[m]? = some (.memoryNode r))
    (hw : (Component.memoryNode r).wf = true) {v a : Nat} (hv : v < 2 ^ r.width) (ha : a < 2 ^ r.addressWidth) :
    exec (.ramTick m v a false) s = .next (s.emit m (r.view a)) := by
  rw [exec_ramTick_view h hw hv ha, Ram.tick_hold hw, State.commit_self h]

theorem exec_framTick_disabled {s : State} {m : Nat} {r : FlatRam} (h : s.components[m]? = some (.flatRam r))
    {v a : Nat} (hv : v < 2 ^ r.width) (ha : a < 2 ^ r.portWidth) :
    exec (.framTick m v a false) s = .next (s.emit m (r.view (r.location a))) := by
  rw [exec_framTick h hv ha]
  exact congrArg _ (State.commit_self h _)

/-- Settles O58: kind by kind, the `peek` and the disabled `tick` both answer the state with the stored word emitted. -/
theorem readsHaveNoSideEffect : Obligations.ReadsHaveNoSideEffect := by
  intro s m v a c hc hw hv
  cases c with
  | delayCell c => exact ⟨nofun, nofun, nofun, nofun, fun _ => exec_dcPeek hc⟩
  | loadableBit b => exact ⟨nofun, nofun, nofun, fun _ => ⟨_, exec_lbPeek hc, exec_lbTick_disabled hc _, rfl⟩, nofun⟩
  | register r =>
    rw [Register.shape_width] at hv
    cases r with
    | bitArray | flat =>
      exact ⟨nofun, nofun, fun _ => ⟨_, exec_wrPeek hc, exec_wrTick_disabled hc hv, rfl⟩, nofun, nofun⟩
  | memoryNode r =>
    exact ⟨fun _ ha => ⟨_, exec_ramPeek hc ha, exec_ramTick_disabled hc hw hv ha, rfl⟩, nofun, nofun, nofun, nofun⟩
  | flatRam r =>
    exact ⟨nofun, fun _ ha => ⟨_, exec_framPeek hc ha, exec_framTick_disabled hc hv ha, rfl⟩, nofun, nofun, nofun⟩

end Sys2Proof.Machine
end

section
/-! PROOFS. What determines an operation's answer: two machines with the same components answer alike (rules R41,
R215). -/

namespace Sys2Proof.Machine

/-- The two states agree on all the block has and the host has seen: the components and the words returned. They may
differ in the model's own trace and count of draws. -/
structure State.Agrees (s u : State) : Prop where
  components : s.components = u.components
  returned : s.returned = u.returned

theorem State.Agrees.commit {s u : State} (h : s.Agrees u) (m : Nat) (c : Component) (out : Option Nat) :
    (s.commit m c out).Agrees (u.commit m c out) :=
  ⟨congrArg (·.set m c) h.components, congrArg (_ ++ ·) h.returned⟩

theorem State.Agrees.emit {s u : State} (h : s.Agrees u) (m w : Nat) : (s.emit m w).Agrees (u.emit m w) :=
  ⟨h.components, congrArg (_ :: ·) h.returned⟩

theorem State.Agrees.view {s u : State} (h : s.Agrees u) (m a : Nat) : s.view m a = u.view m a :=
  State.view_congr (by rw [h.components]) a

/-- Two well-formed states with the same structures, views and returned words agree: a component is determined by its
structure and its view. -/
theorem State.agrees_of_view {s u : State} (hs : s.wf = true) (hu : u.wf = true)
    (hshape : s.components.map Component.shape = u.components.map Component.shape)
    (hview : ∀ (m a : Nat) (c : Component), s.components[m]? = some c → a < c.locations → s.view m a = u.view m a)
    (hret : s.returned = u.returned) : s.Agrees u := by
  have hlen : s.components.length = u.components.length := by simpa using congrArg List.length hshape
  refine ⟨List.ext_getElem hlen fun m hms hmu => ?_, hret⟩
  have hsm := List.getElem?_eq_getElem hms
  have hum := List.getElem?_eq_getElem hmu
  have hshapes : s.components[m].shape = u.components[m].shape := by
    have := congrArg (·[m]?) hshape
    simpa only [List.getElem?_map, hsm, hum, Option.map_some, Option.some.injEq] using this
  refine Component.eq_of_view (State.wf_component hs hsm) (State.wf_component hu hum) hshapes fun a ha => ?_
  rw [← State.view_of_some hsm, ← State.view_of_some hum]
  exact hview m a _ hsm ha

/-- Agreeing states answer an operation alike, except for the draw of a `randomize`. -/
theorem exec_agrees {i : Instr} {s u s' : State} (hsu : s.Agrees u) (hi : i ≠ .ramRandomize i.component)
    (h : exec i s = .next s') : ∃ u', exec i u = .next u' ∧ s'.Agrees u' := by
  have lookup {m : Nat} {c : Component} (hc : s.components[m]? = some c) : u.components[m]? = some c :=
    hsu.components ▸ hc
  cases i with
  | dcTick | dcReset =>
    obtain ⟨c, hc, hk⟩ := State.onDelayCell_next h
    cases hk
    exact ⟨_, State.onDelayCell_some (lookup hc) _, hsu.commit _ _ _⟩
  | dcPeek =>
    obtain ⟨c, hc, hk⟩ := State.onDelayCell_next h
    cases hk
    exact ⟨_, State.onDelayCell_some (lookup hc) _, hsu.emit _ _⟩
  | lbTick | lbReset =>
    obtain ⟨b, hb, hk⟩ := State.onLoadableBit_next h
    cases hk
    exact ⟨_, State.onLoadableBit_some (lookup hb) _, hsu.commit _ _ _⟩
  | lbPeek =>
    obtain ⟨b, hb, hk⟩ := State.onLoadableBit_next h
    cases hk
    exact ⟨_, State.onLoadableBit_some (lookup hb) _, hsu.emit _ _⟩
  | wrTick =>
    obtain ⟨r, hr, hk⟩ := State.onRegister_next h
    obtain ⟨ht, hk⟩ := whenTyped_next hk
    cases hk
    exact ⟨_, (State.onRegister_some (lookup hr) _).trans (by rw [ht, whenTyped_true]), hsu.commit _ _ _⟩
  | wrPeek =>
    obtain ⟨r, hr, hk⟩ := State.onRegister_next h
    cases hk
    exact ⟨_, State.onRegister_some (lookup hr) _, hsu.emit _ _⟩
  | wrReset =>
    obtain ⟨r, hr, hk⟩ := State.onRegister_next h
    cases hk
    exact ⟨_, State.onRegister_some (lookup hr) _, hsu.commit _ _ _⟩
  | ramTick =>
    obtain ⟨r, hr, hk⟩ := State.onRam_next h
    obtain ⟨ht, hk⟩ := whenTyped_next hk
    cases hk
    exact ⟨_, (State.onRam_some (lookup hr) _).trans (by rw [ht, whenTyped_true]), hsu.commit _ _ _⟩
  | ramPeek =>
    obtain ⟨r, hr, hk⟩ := State.onRam_next h
    obtain ⟨ht, hk⟩ := whenTyped_next hk
    cases hk
    exact ⟨_, (State.onRam_some (lookup hr) _).trans (by rw [ht, whenTyped_true]), hsu.emit _ _⟩
  | ramReset =>
    obtain ⟨r, hr, hk⟩ := State.onRam_next h
    cases hk
    exact ⟨_, State.onRam_some (lookup hr) _, hsu.commit _ _ _⟩
  | ramRandomize m => exact absurd rfl hi
  | framTick =>
    obtain ⟨r, hr, hk⟩ := State.onFlatRam_next h
    obtain ⟨ht, hk⟩ := whenTyped_next hk
    cases hk
    exact ⟨_, (State.onFlatRam_some (lookup hr) _).trans (by rw [ht, whenTyped_true]), hsu.commit _ _ _⟩
  | framPeek =>
    obtain ⟨r, hr, hk⟩ := State.onFlatRam_next h
    obtain ⟨ht, hk⟩ := whenTyped_next hk
    cases hk
    exact ⟨_, (State.onFlatRam_some (lookup hr) _).trans (by rw [ht, whenTyped_true]), hsu.emit _ _⟩
  | framReset =>
    obtain ⟨r, hr, hk⟩ := State.onFlatRam_next h
    cases hk
    exact ⟨_, State.onFlatRam_some (lookup hr) _, hsu.commit _ _ _⟩

/-- A run of one operation and more that completes: the first completes, and so do the others after it. -/
theorem runOps_cons_next {i : Instr} {ops : List Instr} {s t : State} (h : runOps (i :: ops) s = .next t) :
    ∃ s₁, exec i s = .next s₁ ∧ runOps ops s₁ = .next t := by
  rw [runOps] at h
  split at h
  · exact ⟨_, ‹_›, h⟩
  · cases h
  · cases h

theorem runOps_cons_of_next {i : Instr} {s s₁ : State} (h : exec i s = .next s₁) (ops : List Instr) :
    runOps (i :: ops) s = runOps ops s₁ := by
  rw [runOps, h]

theorem runOps_agrees {ops : List Instr} {s u s' : State} (hsu : s.Agrees u)
    (hops : ∀ i ∈ ops, i ≠ .ramRandomize i.component) (h : runOps ops s = .next s') :
    ∃ u', runOps ops u = .next u' ∧ s'.Agrees u' := by
  induction ops generalizing s u with
  | nil =>
    cases h
    exact ⟨u, rfl, hsu⟩
  | cons i ops ih =>
    obtain ⟨s₁, hi, hrest⟩ := runOps_cons_next h
    obtain ⟨u₁, hiu, hsu₁⟩ := exec_agrees hsu (hops i List.mem_cons_self) hi
    rw [runOps_cons_of_next hiu]
    exact ih hsu₁ (fun j hj => hops j (List.mem_cons_of_mem i hj)) hrest

/-- Settles O56: equal structures and views mean equal components, and agreeing states run alike. -/
theorem sameViewsAreIndistinguishable : Obligations.SameViewsAreIndistinguishable := by
  intro s u ops hs hu hshape hview hret hops s' h
  obtain ⟨u', hu', hagree⟩ := runOps_agrees (State.agrees_of_view hs hu hshape hview hret) hops h
  exact ⟨u', hu', hagree.returned, hagree.view⟩

end Sys2Proof.Machine
end

section
/-! PROOFS. A word stays until it is written: what an operation that does not write a location leaves there, over any
run, and so what a read returns (rules R50, R210). -/

namespace Sys2Proof.Machine

/-- The named component after an operation keeps its structure and well-formedness. -/
theorem exec_keeps_component {i : Instr} {s t : State} {m : Nat} {c : Component} (h : exec i s = .next t)
    (hc : s.components[m]? = some c) (hw : c.wf = true) :
    ∃ c', t.components[m]? = some c' ∧ c'.shape = c.shape ∧ c'.wf = true := by
  obtain ⟨k, k', out, hk, hcomp, _, _, hp⟩ := exec_next h
  by_cases hm : i.component = m
  · subst hm
    obtain rfl : k = c := Option.some.inj (hk.symm.trans hc)
    obtain ⟨hlt, _⟩ := List.getElem?_eq_some_iff.mp hc
    exact ⟨k', by rw [hcomp, List.getElem?_set_self hlt], hp.shape, hp.wf hw⟩
  · exact ⟨c, by rw [hcomp, List.getElem?_set_ne hm, hc], rfl, hw⟩

/-- An operation that does not write a location leaves its word (rule R210): it is issued on another component, is a
`peek`, or is a `tick` that is disabled or at another location. -/
theorem exec_view_of_not_writes {i : Instr} {s t : State} {m a : Nat} {c : Component} (h : exec i s = .next t)
    (hc : s.components[m]? = some c) (hw : c.wf = true) (hi : writes c.shape m a i = false) :
    t.view m a = s.view m a := by
  by_cases hm : i.component = m
  case neg => exact State.view_congr ((operationTouchesOneComponent s t i h).1 m (Ne.symm hm)) a
  subst hm
  cases i with
  | dcTick | dcReset | lbReset | wrReset | ramReset | ramRandomize | framReset => simp [writes, Instr.component] at hi
  | dcPeek =>
    obtain ⟨_, _, hk⟩ := State.onDelayCell_next h
    cases hk; rfl
  | lbPeek =>
    obtain ⟨_, _, hk⟩ := State.onLoadableBit_next h
    cases hk; rfl
  | wrPeek =>
    obtain ⟨_, _, hk⟩ := State.onRegister_next h
    cases hk; rfl
  | ramPeek =>
    obtain ⟨_, _, hk⟩ := State.onRam_next h
    cases (whenTyped_next hk).2; rfl
  | framPeek =>
    obtain ⟨_, _, hk⟩ := State.onFlatRam_next h
    cases (whenTyped_next hk).2; rfl
  | lbTick m x we =>
    obtain rfl : we = false := by simpa [writes, Instr.component] using hi
    obtain ⟨b, hb, _⟩ := State.onLoadableBit_next h
    cases (exec_lbTick_disabled hb x).symm.trans h; rfl
  | wrTick m v we =>
    obtain rfl : we = false := by simpa [writes, Instr.component] using hi
    obtain ⟨r, hr, hk⟩ := State.onRegister_next h
    have hv := (Word.fits_iff _ _).mp (whenTyped_next hk).1
    cases (exec_wrTick_disabled hr hv).symm.trans h; rfl
  | ramTick m v b we =>
    obtain ⟨r, hr, hk⟩ := State.onRam_next h
    obtain ⟨ht, hk⟩ := whenTyped_next hk
    simp only [Bool.and_eq_true, Word.fits_iff] at ht
    obtain rfl : c = .memoryNode r := Option.some.inj (hc.symm.trans hr)
    have hother : ¬(a = b ∧ we = true) := by
      rintro ⟨rfl, rfl⟩
      simp [writes, Instr.component, locationOf, Component.shape] at hi
    cases hk
    calc _ = (r.tick v b we).2.view a := State.commit_view hr _ _ a
      _ = r.view a := (Ram.tick_view hw ht.1 ht.2 we a).trans (if_neg hother)
      _ = s.view m a := (State.view_of_some hr a).symm
  | framTick m v b we =>
    obtain ⟨r, hr, hk⟩ := State.onFlatRam_next h
    obtain rfl : c = .flatRam r := Option.some.inj (hc.symm.trans hr)
    have hother : ¬(a = r.location b ∧ we = true) := by
      rintro ⟨rfl, rfl⟩
      simp [writes, Instr.component, locationOf, Component.shape, FlatRam.location, FlatRam.capacity] at hi
    cases (whenTyped_next hk).2
    calc _ = (r.tick v b we).2.view a := State.commit_view hr _ _ a
      _ = r.view a := (FlatRam.tick_view hw v b we a).trans (if_neg hother)
      _ = s.view m a := (State.view_of_some hr a).symm

/-- Component `m` is a well-formed component of the given structure, and the word at its location `a` is `w`. -/
structure State.Holds (s : State) (m : Nat) (sh : Shape) (a w : Nat) : Prop where
  component : ∃ c, s.components[m]? = some c ∧ c.shape = sh ∧ c.wf = true
  word : s.view m a = w

/-- An operation that does not write the location keeps what it holds. -/
theorem State.Holds.after_exec {i : Instr} {s t : State} {m a w : Nat} {sh : Shape} (hold : s.Holds m sh a w)
    (hi : writes sh m a i = false) (h : exec i s = .next t) : t.Holds m sh a w := by
  obtain ⟨⟨c, hc, rfl, hw⟩, hword⟩ := hold
  exact ⟨exec_keeps_component h hc hw, (exec_view_of_not_writes h hc hw hi).trans hword⟩

/-- And so does any run of such operations. -/
theorem State.Holds.after_runOps {ops : List Instr} {s t : State} {m a w : Nat} {sh : Shape} (hold : s.Holds m sh a w)
    (hops : ops.all (fun i => !writes sh m a i) = true) (h : runOps ops s = .next t) : t.Holds m sh a w := by
  induction ops generalizing s with
  | nil =>
    cases h
    exact hold
  | cons i ops ih =>
    obtain ⟨s₁, hexec, hrest⟩ := runOps_cons_next h
    simp only [List.all_cons, Bool.and_eq_true, Bool.not_eq_true'] at hops
    exact ih (hold.after_exec hops.1 hexec) hops.2 hrest

/-- An enabled tick of a tree leaves its input at the address. -/
theorem exec_ramTick_holds {s t : State} {m v a : Nat} {r : Ram} (hr : s.components[m]? = some (.memoryNode r))
    (hw : (Component.memoryNode r).wf = true) (hv : v < 2 ^ r.width) (ha : a < 2 ^ r.addressWidth)
    (h : exec (.ramTick m v a true) s = .next t) : t.Holds m (Component.memoryNode r).shape a v := by
  refine ⟨exec_keeps_component h hr hw, ?_⟩
  cases (exec_ramTick_view hr hw hv ha true).symm.trans h
  exact (State.commit_view hr _ _ a).trans ((Ram.tick_view hw hv ha true a).trans (if_pos ⟨rfl, rfl⟩))

theorem exec_ramReset_holds {s t : State} {m : Nat} {r : Ram} (hr : s.components[m]? = some (.memoryNode r))
    (hw : (Component.memoryNode r).wf = true) (h : exec (.ramReset m) s = .next t) (a : Nat) :
    t.Holds m (Component.memoryNode r).shape a 0 := by
  refine ⟨exec_keeps_component h hr hw, ?_⟩
  cases (exec_ramReset hr).symm.trans h
  exact (State.commit_view hr _ _ a).trans (Ram.reset_view hw a)

/-- An enabled tick of a FlatRam leaves its input at the address. -/
theorem exec_framTick_holds {s t : State} {m v a : Nat} {r : FlatRam} (hr : s.components[m]? = some (.flatRam r))
    (hw : (Component.flatRam r).wf = true) (hv : v < 2 ^ r.width) (ha : a < r.capacity)
    (h : exec (.framTick m v a true) s = .next t) : t.Holds m (Component.flatRam r).shape a v := by
  refine ⟨exec_keeps_component h hr hw, ?_⟩
  cases (exec_framTick_view hr hw hv ha true).symm.trans h
  exact (State.commit_view hr _ _ a).trans
    ((FlatRam.tick_view hw v a true a).trans (if_pos ⟨(FlatRam.location_of_lt ha).symm, rfl⟩))

theorem exec_framReset_holds {s t : State} {m : Nat} {r : FlatRam} (hr : s.components[m]? = some (.flatRam r))
    (hw : (Component.flatRam r).wf = true) (h : exec (.framReset m) s = .next t) (a : Nat) :
    t.Holds m (Component.flatRam r).shape a 0 := by
  refine ⟨exec_keeps_component h hr hw, ?_⟩
  cases (exec_framReset hr).symm.trans h
  exact (State.commit_view hr _ _ a).trans (r.reset_view a)

/-- A component with the structure of a tree is one. -/
theorem Component.memoryNode_of_shape {c : Component} (h : c.shape.isMemoryNode = true) : ∃ r, c = .memoryNode r := by
  cases c with
  | memoryNode r => exact ⟨r, rfl⟩
  | register r => cases r <;> cases h
  | delayCell | loadableBit | flatRam => cases h

/-- A component with the structure of a FlatRam is one. -/
theorem Component.flatRam_of_shape {c : Component} (h : c.shape.isFlatRam = true) : ∃ r, c = .flatRam r := by
  cases c with
  | flatRam r => exact ⟨r, rfl⟩
  | register r => cases r <;> cases h
  | delayCell | loadableBit | memoryNode => cases h

/-- A peek and a tick of a tree, enabled or not, return the word that the location holds (rules R42, R129). -/
theorem State.Holds.ram_read {s : State} {m width a x w : Nat} {sched : List Nat}
    (hold : s.Holds m (.memoryNode width sched) a w) (hx : x < 2 ^ width) (ha : a < 2 ^ sched.sum) :
    (∃ p, exec (.ramPeek m a) s = .next p ∧ p.returned = ⟨m, w⟩ :: s.returned) ∧
    ∀ we, ∃ p, exec (.ramTick m x a we) s = .next p ∧ p.returned = ⟨m, w⟩ :: s.returned := by
  obtain ⟨⟨c, hc, hshape, hw⟩, rfl⟩ := hold
  obtain ⟨r, rfl⟩ := Component.memoryNode_of_shape (c := c) (by rw [hshape]; rfl)
  obtain ⟨rfl, rfl⟩ := Shape.memoryNode.inj hshape
  rw [State.view_of_some hc]
  exact ⟨⟨_, exec_ramPeek hc ha, rfl⟩, fun we => ⟨_, exec_ramTick_view hc hw hx ha we, rfl⟩⟩

/-- A peek and a tick of a FlatRam, enabled or not, return the word that the location holds (rules R42, R151). -/
theorem State.Holds.fram_read {s : State} {m width addressWidth portWidth a x w : Nat}
    (hold : s.Holds m (.flatRam width addressWidth portWidth) a w) (hx : x < 2 ^ width) (ha : a < 2 ^ addressWidth) :
    (∃ p, exec (.framPeek m a) s = .next p ∧ p.returned = ⟨m, w⟩ :: s.returned) ∧
    ∀ we, ∃ p, exec (.framTick m x a we) s = .next p ∧ p.returned = ⟨m, w⟩ :: s.returned := by
  obtain ⟨⟨c, hc, hshape, hw⟩, rfl⟩ := hold
  obtain ⟨r, rfl⟩ := Component.flatRam_of_shape (c := c) (by rw [hshape]; rfl)
  obtain ⟨rfl, rfl, rfl⟩ := Shape.flatRam.inj hshape
  rw [State.view_of_some hc]
  exact ⟨⟨_, exec_framPeek_view hc hw ha, rfl⟩, fun we => ⟨_, exec_framTick_view hc hw hx ha we, rfl⟩⟩

/-- Settles O55: the write, or the reset, puts the word at the location; operations that do not write it leave it there;
a read returns it. -/
theorem readReturnsTheMostRecentWrite : Obligations.ReadReturnsTheMostRecentWrite := by
  intro s m v x a c ops t u hs hc ha hv hx hops
  have hw := State.wf_component hs hc
  refine ⟨fun hram => ?_, fun hflat => ?_⟩
  · obtain ⟨r, rfl⟩ := Component.memoryNode_of_shape hram
    exact ⟨fun hexec hrun => ((exec_ramTick_holds hc hw hv ha hexec).after_runOps hops hrun).ram_read hx ha,
      fun hexec hrun => ((exec_ramReset_holds hc hw hexec a).after_runOps hops hrun).ram_read hx ha⟩
  · obtain ⟨r, rfl⟩ := Component.flatRam_of_shape hflat
    exact ⟨fun hexec hrun => ((exec_framTick_holds hc hw hv ha hexec).after_runOps hops hrun).fram_read hx ha,
      fun hexec hrun => ((exec_framReset_holds hc hw hexec a).after_runOps hops hrun).fram_read hx ha⟩

end Sys2Proof.Machine
end

section
/-! PROOFS. A disabled tick is a peek, in its answer as in its refusals, so its input operand does not matter (rules
R62, R93). -/

namespace Sys2Proof.Machine

/-- On every machine, also where `m` is no LoadableBit: the same word and state, or the same refusal. -/
theorem exec_lbTick_disabled_eq_peek (s : State) (m : Nat) (x : Bit) :
    exec (.lbTick m x false) s = exec (.lbPeek m) s := by
  simp only [exec, execLbTick, execLbPeek, State.onLoadableBit]
  split
  · exact congrArg _ (State.commit_self ‹_› _)
  · rfl
  · rfl

section
variable {s : State} {m v : Nat} {c : Component}

theorem exec_wrTick_disabled_eq_peek (hc : s.components[m]? = some c) (hv : v < 2 ^ c.shape.inWidth) :
    exec (.wrTick m v false) s = exec (.wrPeek m) s := by
  cases c with
  | register r =>
    rw [Register.shape_width] at hv
    rw [exec_wrTick_disabled hc hv, exec_wrPeek hc]
  | delayCell | loadableBit | memoryNode | flatRam =>
    simp only [exec, execWrTick, execWrPeek, State.onRegister, hc]

/-- At an untyped address both refuse alike (rule R48). -/
theorem exec_ramTick_disabled_eq_peek (hc : s.components[m]? = some c) (hw : c.wf = true)
    (hv : v < 2 ^ c.shape.inWidth) (a : Nat) : exec (.ramTick m v a false) s = exec (.ramPeek m a) s := by
  cases c with
  | memoryNode r =>
    obtain ⟨tick_refused, peek_refused, -⟩ := untypedOperandsAreRefused
    rcases Nat.lt_or_ge a (2 ^ r.addressWidth) with ha | ha
    · rw [exec_ramTick_disabled hc hw hv ha, exec_ramPeek hc ha]
    · rw [tick_refused s m r v a false hc (.inr ha), peek_refused s m r a hc ha]
  | delayCell | loadableBit | register | flatRam =>
    simp only [exec, execRamTick, execRamPeek, State.onRam, hc]

/-- At an untyped address both refuse alike (rule R48). -/
theorem exec_framTick_disabled_eq_peek (hc : s.components[m]? = some c) (hv : v < 2 ^ c.shape.inWidth) (a : Nat) :
    exec (.framTick m v a false) s = exec (.framPeek m a) s := by
  cases c with
  | flatRam r =>
    obtain ⟨-, -, -, tick_refused, peek_refused⟩ := untypedOperandsAreRefused
    rcases Nat.lt_or_ge a (2 ^ r.portWidth) with ha | ha
    · rw [exec_framTick_disabled hc hv ha, exec_framPeek hc ha]
    · rw [tick_refused s m r v a false hc (.inr ha), peek_refused s m r a hc ha]
  | delayCell | loadableBit | register | memoryNode =>
    simp only [exec, execFramTick, execFramPeek, State.onFlatRam, hc]

end

/-- Settles O57: with either input the disabled tick is the same `peek`, which has no input. -/
theorem disabledInputDoesNotMatter : Obligations.DisabledInputDoesNotMatter := by
  refine ⟨fun s m x y => ?_, fun s m v w a c hc hwf hv hw => ⟨?_, ?_, ?_⟩⟩
  · rw [exec_lbTick_disabled_eq_peek, exec_lbTick_disabled_eq_peek]
  · rw [exec_wrTick_disabled_eq_peek hc hv, exec_wrTick_disabled_eq_peek hc hw]
  · rw [exec_ramTick_disabled_eq_peek hc hwf hv, exec_ramTick_disabled_eq_peek hc hwf hw]
  · rw [exec_framTick_disabled_eq_peek hc hv, exec_framTick_disabled_eq_peek hc hw]

end Sys2Proof.Machine
end

section
/-! PROOFS. The DelayCell (rules R80 to R83), and what its statements share with the other components': the command
words of a class with its ignored bits at any value, and a run of ticks on one component. -/

namespace Sys2Proof.Machine

section
variable {sh : Shape} {m a v : Nat} (ha : a < 2 ^ sh.addressFieldWidth) (hv : v < 2 ^ sh.inWidth)
include ha hv

/-- The words with `ctl = 001l` (rule R66). -/
theorem decode_tickWord (load : Bit) :
    decode sh m (commandWord sh (2 + load.toNat) a v) = operation sh m .tick load a v := by
  change decode sh m (commandWord sh (tickCtl load) a v) = _
  rw [decode_commandWord (tickCtl_lt load) ha hv, ctlClass_tickCtl, tickCtl_load]

/-- The words with `ctl = 000-` (rule R66). -/
theorem decode_peekWord (load : Bit) :
    decode sh m (commandWord sh load.toNat a v) = operation sh m .peek load a v := by
  have hctl : load.toNat < 16 ∧ ctlClass load.toNat = .peek ∧ load.toNat.testBit 0 = load := by
    cases load <;> decide
  obtain ⟨hlt, hclass, hload⟩ := hctl
  rw [decode_commandWord hlt ha hv, hclass, hload]

/-- The words with `ctl = 1---` (rule R66). -/
theorem decode_resetWord (low : Fin 8) :
    decode sh m (commandWord sh (8 + low) a v) = operation sh m .reset ((8 + low.val).testBit 0) a v := by
  have hclass : ∀ low : Fin 8, ctlClass (8 + low) = .reset := by decide
  rw [decode_commandWord (by omega) ha hv, hclass low]

end

/-- An operation on an existing component leaves there the component it commits. -/
theorem State.commit_lookup {s : State} {m : Nat} {c : Component} (h : s.components[m]? = some c) (c' : Component)
    (out : Option Nat) : (s.commit m c' out).components[m]? = some c' := by
  obtain ⟨hm, _⟩ := List.getElem?_eq_some_iff.mp h
  exact List.getElem?_set_self hm

/-- A run of ticks on one component. Where every tick returns the word `word b` of the value `b` that the component
holds and leaves it at `next b x`, the run returns the words of all values held but the last, the newest first, and
leaves the last value. -/
theorem runOps_ticks {α β : Type} {m : Nat} {tick : α → Instr} {comp : β → Component} {next : β → α → β}
    {word : β → Nat} {xs : List α} {s : State} {b : β}
    (htick : ∀ (s : State) (b : β), ∀ x ∈ xs, s.components[m]? = some (comp b) →
      exec (tick x) s = .next (s.commit m (comp (next b x)) (some (word b))))
    (h : s.components[m]? = some (comp b)) :
    runOps (xs.map tick) s = .next { s with
      components := s.components.set m (comp ((xs.scanl next b).getLastD b))
      returned := (((xs.scanl next b).take xs.length).map (fun b => ⟨m, word b⟩)).reverse ++ s.returned } := by
  rw [List.getLastD_eq_getLast?, List.getLast?_scanl, Option.getD_some]
  induction xs generalizing s b with
  | nil => simp [runOps, set_self h]
  | cons x xs ih =>
    have hexec := htick s b x List.mem_cons_self h
    have hheld := State.commit_lookup h (comp (next b x)) (some (word b))
    rw [List.map_cons, runOps_cons_of_next hexec, ih (fun s b y hy => htick s b y (List.mem_cons_of_mem x hy)) hheld]
    simp [State.commit]

/-- Settles O13: the meaning's equation, and the word's decoding, where the input field of one bit is the input. -/
theorem delayCellTick : Obligations.DelayCellTick := by
  intro s m q x load h
  refine ⟨exec_dcTick h x, rfl, ?_⟩
  rw [decode_tickWord (sh := .delayCell) Nat.one_pos (Bool.toNat_lt x), operation, Nat.testBit_bool_toNat]
  rfl

/-- Settles O14: the meaning's equation, and the word's decoding. -/
theorem delayCellPeek : Obligations.DelayCellPeek := fun _ _ _ x load h =>
  ⟨exec_dcPeek h, rfl, decode_peekWord Nat.one_pos (Bool.toNat_lt x) load⟩

/-- Settles O15: the meaning's equation, and the word's decoding. -/
theorem delayCellReset : Obligations.DelayCellReset := fun _ _ _ x low h =>
  ⟨exec_dcReset h, rfl, decode_resetWord Nat.one_pos (Bool.toNat_lt x) low⟩

/-- The values a DelayCell holds through a run of ticks: the stored bit and then the inputs. -/
theorem scanl_cellValues (q : Bit) (xs : List Bit) : xs.scanl (fun _ x => x) q = q :: xs := by
  induction xs generalizing q with
  | nil => rfl
  | cons x xs ih => rw [List.scanl_cons, ih]

/-- Settles O16: by the rule for a run of ticks, whose values here are the stored bit and the inputs. -/
theorem delayCellLatency : Obligations.DelayCellLatency := by
  intro s m q xs h
  have hrun := runOps_ticks (tick := .dcTick m) (comp := fun q => .delayCell ⟨q⟩) (next := fun _ x => x)
    (word := bitWord) (xs := xs) (fun _ _ x _ hq => exec_dcTick hq x) h
  rw [scanl_cellValues, List.getLastD_cons] at hrun
  exact hrun

end Sys2Proof.Machine
end

section
/-! PROOFS. The LoadableBit (rules R90 to R95). -/

namespace Sys2Proof.Machine

/-- Settles O17: the meaning's equation, and the word's decoding, where the input field of one bit is the input and the
load bit is the enable. -/
theorem loadableBitTick : Obligations.LoadableBitTick := by
  intro s m q x we h
  refine ⟨exec_lbTick h x we, rfl, ?_⟩
  rw [decode_tickWord (sh := .loadableBit) Nat.one_pos (Bool.toNat_lt x), operation, Nat.testBit_bool_toNat]
  rfl

/-- Settles O18: the equations of both meanings, and the decoding of their words. -/
theorem loadableBitPeekAndReset : Obligations.LoadableBitPeekAndReset := fun _ _ _ x load low h =>
  ⟨exec_lbPeek h, exec_lbReset h, rfl, rfl, decode_peekWord Nat.one_pos (Bool.toNat_lt x) load,
    decode_resetWord Nat.one_pos (Bool.toNat_lt x) low⟩

/-- Settles O19: by the rule for a run of ticks, whose values here are the bits decided so far. -/
theorem loadableBitVisibilityDelay : Obligations.LoadableBitVisibilityDelay := fun _ m _ _ h =>
  runOps_ticks (tick := fun t : Bit × Bit => .lbTick m t.1 t.2) (comp := fun q => .loadableBit ⟨⟨q⟩⟩)
    (next := fun b t => if t.2 then t.1 else b) (word := bitWord) (fun _ _ t _ hq => exec_lbTick hq t.1 t.2) h

/-- A run of enabled ticks on a LoadableBit (rule R95): what `Obligations.DelayCellLatency` says of a DelayCell. -/
theorem runOps_lbTick_enabled {s : State} {m : Nat} {q : Bit} (xs : List Bit)
    (h : s.components[m]? = some (.loadableBit ⟨⟨q⟩⟩)) :
    runOps (xs.map (fun x => .lbTick m x true)) s = .next { s with
      components := s.components.set m (.loadableBit ⟨⟨xs.getLastD q⟩⟩)
      returned := (((q :: xs).take xs.length).map (fun b => Returned.mk m b.toNat)).reverse ++ s.returned } := by
  have hrun := runOps_ticks (tick := fun x => .lbTick m x true) (comp := fun q => .loadableBit ⟨⟨q⟩⟩)
    (next := fun _ x => x) (word := bitWord) (xs := xs) (fun _ _ x _ hq => exec_lbTick hq x true) h
  rw [scanl_cellValues, List.getLastD_cons] at hrun
  exact hrun

/-- Settles O20: either run returns the stored bit and then the inputs, and leaves the last input stored. -/
theorem enabledLoadableBitIsADelayCell : Obligations.EnabledLoadableBitIsADelayCell := by
  intro s u m q xs hs hu hret
  obtain ⟨hsm, _⟩ := List.getElem?_eq_some_iff.mp hs
  obtain ⟨hum, _⟩ := List.getElem?_eq_some_iff.mp hu
  exact ⟨_, _, xs.getLastD q, runOps_lbTick_enabled xs hs, delayCellLatency u m q xs hu, congrArg (_ ++ ·) hret,
    List.getElem?_set_self hsm, List.getElem?_set_self hum⟩

end Sys2Proof.Machine
end

section
/-! PROOFS. The WordRegister (rules R100 to R109): the meanings' equations written out for the bit-array and the flat
register, and what any run of operations does in either representation, in terms of the register's value alone. -/

namespace Sys2Proof.Machine

/-- The value of a register of value `v` after an operation, in either representation (rules R104, R105). -/
def RegisterOp.nextValue (v : Nat) : RegisterOp → Nat
  | .tick x we => if we then x else v
  | .peek => v
  | .reset => 0

/-- The word that an operation on a register of value `v` returns; a `reset` returns none (rule R60). -/
def RegisterOp.word (v : Nat) : RegisterOp → Option Nat
  | .tick _ _ => some v
  | .peek => some v
  | .reset => none

/-- The words that a run on component `m`, a register of value `v`, returns, newest first. -/
def RegisterOp.words (m : Nat) : Nat → List RegisterOp → List Returned
  | _, [] => []
  | v, op :: ops => words m (op.nextValue v) ops ++ ((op.word v).map (Returned.mk m)).toList

/-- One operation commits a register of the same structure, with the value and the returned word that the old value
determines: the contract both representations meet. -/
theorem exec_registerOp {s : State} {m : Nat} {r : Register} (h : s.components[m]? = some (.register r))
    {op : RegisterOp} (ht : op.typed r.width = true) :
    ∃ r', exec (op.on m) s = .next (s.commit m (.register r') (op.word r.val)) ∧
      (Component.register r').shape = (Component.register r).shape ∧ r'.val = op.nextValue r.val := by
  cases op with
  | tick v we =>
    have hv : v < 2 ^ r.width := (Word.fits_iff _ _).mp ht
    exact ⟨_, exec_wrTick h hv we, Register.shape_tick v we r, Register.tick_val hv we⟩
  | peek => exact ⟨r, (exec_wrPeek h).trans (congrArg _ (State.commit_self h _).symm), rfl, rfl⟩
  | reset => exact ⟨_, exec_wrReset h, Register.shape_reset r, Register.reset_val r⟩

/-- A run of operations completes, changes the named register only and keeps its structure; the value it leaves and the
words it returns are determined by the value it starts from. -/
theorem runOps_registerOps {s : State} {m : Nat} {r : Register} {ops : List RegisterOp}
    (h : s.components[m]? = some (.register r)) (ht : ops.all (RegisterOp.typed r.width) = true) :
    ∃ t r', runOps (ops.map (RegisterOp.on m)) s = .next t ∧
      t.returned = RegisterOp.words m r.val ops ++ s.returned ∧ t.components = s.components.set m (.register r') ∧
      (Component.register r').shape = (Component.register r).shape ∧
      r'.val = ops.foldl RegisterOp.nextValue r.val := by
  induction ops generalizing s r with
  | nil => exact ⟨s, r, rfl, rfl, (set_self h).symm, rfl, rfl⟩
  | cons op ops ih =>
    rw [List.all_cons, Bool.and_eq_true] at ht
    obtain ⟨r₁, hexec, hshape₁, hval₁⟩ := exec_registerOp h ht.1
    have hwidth₁ : r₁.width = r.width := by rw [← r₁.shape_width, hshape₁, r.shape_width]
    obtain ⟨t, r', hrun, hret, hcomp, hshape, hval⟩ := ih (State.commit_lookup h (.register r₁) (op.word r.val))
      (hwidth₁ ▸ ht.2)
    refine ⟨t, r', ?_, ?_, ?_, hshape.trans hshape₁, ?_⟩
    · rw [List.map_cons, runOps_cons_of_next hexec, hrun]
    · rw [hret, hval₁, RegisterOp.words, List.append_assoc, State.commit]
    · rw [hcomp, State.commit_components, List.set_set]
    · rw [hval, hval₁, List.foldl_cons]

/-- A reset as the last operation leaves the value 0 (rules R102, R105). -/
theorem RegisterOp.foldl_nextValue_of_reset {ops : List RegisterOp} (h : ops.getLast? = some .reset) (v : Nat) :
    ops.foldl RegisterOp.nextValue v = 0 := by
  obtain ⟨init, rfl⟩ := List.getLast?_eq_some_iff.mp h
  rw [List.foldl_append]
  rfl

/-- A register with the structure of a bit-array is one. -/
theorem Register.bitArray_of_shape {r : Register} {width : Nat}
    (h : (Component.register r).shape = .wordRegister width) : ∃ b, r = .bitArray b ∧ b.bits.length = width := by
  cases r with
  | bitArray b => exact ⟨b, rfl, Shape.wordRegister.inj h⟩
  | flat f => cases h

/-- Settles O25: a run's words and its last value are determined by the first value, which the two registers share, and
a register is determined by its structure and value. -/
theorem bitArrayAndFlatRegistersAgree : Obligations.BitArrayAndFlatRegistersAgree := by
  intro s u m r ops hs hu hret htyped
  obtain ⟨hsm, _⟩ := List.getElem?_eq_some_iff.mp hs
  obtain ⟨hum, _⟩ := List.getElem?_eq_some_iff.mp hu
  obtain ⟨s', b, hrun, hwords, hcomp, hshape, hval⟩ := runOps_registerOps hs htyped
  obtain ⟨u', f, hrun', hwords', hcomp', hshape', hval'⟩ := runOps_registerOps hu htyped
  obtain ⟨r', rfl, hwidth⟩ := Register.bitArray_of_shape hshape
  obtain rfl : f = .flat ⟨r.bits.length, r'.val⟩ := Register.eq_of_val hshape' (hval'.trans hval.symm)
  refine ⟨s', u', r', hrun, hrun', ?_, ?_, hwidth, ?_, fun hlast => ?_⟩
  · rw [hwords, hwords', hret]
    rfl
  · rw [hcomp, List.getElem?_set_self hsm]
  · rw [hcomp', List.getElem?_set_self hum]
  · exact hval.trans (RegisterOp.foldl_nextValue_of_reset hlast _)

/-- The bits of the register that a written word makes (rule R100). -/
theorem WordRegister.ofWord_eq (width v : Nat) :
    WordRegister.ofWord width v = ⟨(List.range width).map (fun i => ⟨⟨v.testBit i⟩⟩)⟩ := by
  rw [WordRegister.ofWord, wordBits, List.map_map]
  rfl

/-- Settles O21: the meaning's equation with the tick expanded, and the word's decoding. -/
theorem wordRegisterTick : Obligations.WordRegisterTick := by
  intro s m r v we h hv
  refine ⟨?_, rfl, decode_tickWord (sh := .wordRegister _) Nat.one_pos hv we⟩
  rw [exec_wrTick h hv, Register.tick, WordRegister.tick_eq, WordRegister.ofWord_eq]
  rfl

/-- Settles O22: the equations of both meanings, where a reset register is a created one, and the decoding of their
words. -/
theorem wordRegisterPeekAndReset : Obligations.WordRegisterPeekAndReset := by
  intro s m r v load low h hv
  refine ⟨exec_wrPeek h, ?_, rfl, rfl, decode_peekWord (sh := .wordRegister _) Nat.one_pos hv load,
    decode_resetWord (sh := .wordRegister _) Nat.one_pos hv low⟩
  rw [exec_wrReset h, Register.reset, WordRegister.reset_eq_zero]
  rfl

/-- Rule R105, the stored value after a tick. -/
theorem FlatRegister.tick_snd (v : Nat) (we : Bit) (r : FlatRegister) :
    (r.tick v we).2 = ⟨r.width, if we then v else r.value⟩ := by cases we <;> rfl

/-- Settles O23: the meanings' equations, the decoding of their words, and the refusal of a wider input that holds of
every register. -/
theorem flatRegisterOperations : Obligations.FlatRegisterOperations := by
  intro s m r v we load low h hv
  obtain ⟨-, -, tick_refused, -⟩ := untypedOperandsAreRefused
  refine ⟨?_, exec_wrPeek h, exec_wrReset h, rfl, rfl, rfl,
    decode_tickWord (sh := .flatRegister _) Nat.one_pos hv we,
    decode_peekWord (sh := .flatRegister _) Nat.one_pos hv load,
    decode_resetWord (sh := .flatRegister _) Nat.one_pos hv low,
    fun wide hwide => tick_refused s m _ wide we h hwide⟩
  rw [exec_wrTick h hv, Register.tick, FlatRegister.tick_snd]
  rfl

/-- A run of ticks returns the values held before each of them. -/
theorem RegisterOp.words_ticks (m v : Nat) (ts : List (Nat × Bit)) :
    RegisterOp.words m v (ts.map fun t => .tick t.1 t.2) =
      (((ts.scanl (fun v t => if t.2 then t.1 else v) v).take ts.length).map (Returned.mk m)).reverse := by
  induction ts generalizing v with
  | nil => rfl
  | cons t ts ih => simp [RegisterOp.words, RegisterOp.nextValue, RegisterOp.word, ih]

/-- Settles O24: by the rule for a run of operations, whose words and last value are here those of a run of ticks. -/
theorem registerLaw : Obligations.RegisterLaw := by
  intro s m r ts h htyped
  have hops : (ts.map fun t => RegisterOp.tick t.1 t.2).all (RegisterOp.typed r.width) = true := by
    simpa [RegisterOp.typed] using htyped
  obtain ⟨t, r', hrun, hret, hcomp, -, hval⟩ := runOps_registerOps h hops
  rw [List.map_map] at hrun
  rw [RegisterOp.words_ticks] at hret
  refine ⟨t, r', hrun, hret, hcomp, ?_⟩
  rw [hval, List.foldl_map, List.getLastD_eq_getLast?, List.getLast?_scanl, Option.getD_some]
  rfl

/-- The spec's pattern of an integer is the library's two's-complement word (rules R12, R70). -/
theorem signedPattern_eq_toNat (width : Nat) (z : Int) : signedPattern width z = (BitVec.ofInt width z).toNat := by
  rw [signedPattern, BitVec.toNat_ofInt]
  norm_cast

/-- The spec's signed reading of a word is the library's (rule R12). -/
theorem signedValue_toNat {width : Nat} (hw : 1 ≤ width) (x : BitVec width) :
    signedValue width x.toNat = x.toInt := by
  have hhalf : x.toNat < 2 ^ (width - 1) ↔ 2 * x.toNat < 2 ^ width := by
    rw [← Nat.two_pow_pred_mul_two hw]
    omega
  simp only [signedValue, BitVec.toInt_eq_toNat_cond, hhalf]
  norm_cast

theorem signedPattern_lt (width : Nat) (z : Int) : signedPattern width z < 2 ^ width := by
  rw [signedPattern_eq_toNat]
  exact BitVec.isLt _

/-- The pattern of an integer of the width reads as the integer (rule R12). -/
theorem signedValue_signedPattern {width : Nat} {z : Int} (hw : 1 ≤ width) (hlo : -(2 ^ (width - 1)) ≤ z)
    (hhi : z < 2 ^ (width - 1)) : signedValue width (signedPattern width z) = z := by
  rw [signedPattern_eq_toNat, signedValue_toNat hw]
  exact BitVec.toInt_ofInt_eq_self hw hlo hhi

/-- Settles O26: the tick stores the pattern, which is a word of the register, and the peek returns it. -/
theorem signedValueRoundTrip : Obligations.SignedValueRoundTrip := by
  refine ⟨by decide, by decide, fun s m r z h hw hlo hhi => ?_⟩
  have hpattern := signedPattern_lt r.width z
  have hstored : (r.tick (signedPattern r.width z) true).2.val = signedPattern r.width z :=
    Register.tick_val hpattern true
  exact ⟨_, _, _, exec_wrTick h hpattern true, exec_wrPeek (State.commit_lookup h _ _), rfl, hstored,
    (congrArg _ hstored).trans (signedValue_signedPattern hw hlo hhi)⟩

end Sys2Proof.Machine
end

section
/-! PROOFS. The routing of a tree: the fan-out schedules, the path of an address, the bit order of a selector (rules R123,
R125, R132, R139, R168). -/

namespace Sys2Proof.Machine

/-- An 8-way schedule of any depth is legal (rule R123). -/
theorem schedOk_replicate (n : Nat) : schedOk (List.replicate (n + 1) 3) = true := by
  induction n with
  | zero => rfl
  | succ n ih => rw [List.replicate_succ, List.replicate_succ, schedOk, ← List.replicate_succ, ih]; rfl

/-- And so is one with a 2-way or 4-way root. -/
theorem schedOk_cons_replicate {s : Nat} (hs : s = 1 ∨ s = 2) (n : Nat) :
    schedOk (s :: List.replicate (n + 1) 3) = true := by
  rw [List.replicate_succ, schedOk, ← List.replicate_succ, schedOk_replicate]
  rcases hs with rfl | rfl <;> rfl

/-- The default schedule is legal at every address width that is offered (rule R123, decision D7). -/
theorem Config.sched_ok {a : Nat} (ha : 3 ≤ a) : schedOk (Config.sched a) = true := by
  obtain ⟨n, hn⟩ : ∃ n, a / 3 = n + 1 := ⟨a / 3 - 1, by omega⟩
  rw [Config.sched, hn]
  split
  · exact schedOk_replicate n
  · exact schedOk_cons_replicate (by omega) n

theorem Config.sched_sum (a : Nat) : (Config.sched a).sum = a := by
  rw [Config.sched]
  split <;> simp only [List.sum_cons, List.sum_replicate, smul_eq_mul] <;> omega

/-- Settles O35: the seven rows are computed; the default is legal and sums to the width. -/
theorem fanOutSchedule : Obligations.FanOutSchedule :=
  ⟨rfl, rfl, rfl, rfl, rfl, rfl, rfl, fun a ha => ⟨Config.sched_ok ha, Config.sched_sum a⟩⟩

/-- At the root of an address in range nothing is masked off: the first index is `high` itself. -/
theorem addressPath_root {s a : Nat} {rest : List Nat} (ha : a < 2 ^ (s + rest.sum)) :
    addressPath (s :: rest) a = highSegment rest.sum a :: addressPath rest a :=
  congrArg (· :: addressPath rest a) (Nat.mod_eq_of_lt (highSegment_lt ha))

/-- Below the root only the low bits count: a path is that of the address's low segment. -/
theorem addressPath_lowSegment {sched : List Nat} {n : Nat} (hn : sched.sum ≤ n) (a : Nat) :
    addressPath sched (lowSegment n a) = addressPath sched a := by
  induction sched with
  | nil => rfl
  | cons s rest ih =>
    rw [List.sum_cons] at hn
    have hindex : (a % 2 ^ n) >>> rest.sum % 2 ^ s = a >>> rest.sum % 2 ^ s := by
      apply Nat.eq_of_testBit_eq
      intro i
      simp only [Nat.testBit_mod_two_pow, Nat.testBit_shiftRight]
      by_cases hi : i < s
      · have : rest.sum + i < n := by omega
        simp [this]
      · simp [hi]
    rw [addressPath, addressPath, ih (by omega), lowSegment, hindex]

/-- The path of an address in range: the child `high`, then the path of `low` in that child (rules R124, R132). -/
theorem addressPath_internal {s a : Nat} {rest : List Nat} (ha : a < 2 ^ (s + rest.sum)) :
    addressPath (s :: rest) a = highSegment rest.sum a :: addressPath rest (lowSegment rest.sum a) := by
  rw [addressPath_root ha, addressPath_lowSegment (Nat.le_refl _)]

/-- The index at an 8-way level is the shifted address masked with 7 (rule R139). -/
theorem addressPath_eightWay (rest : List Nat) (a : Nat) :
    addressPath (3 :: rest) a = (a >>> rest.sum &&& 7) :: addressPath rest a := by
  rw [addressPath, ← Nat.and_two_pow_sub_one_eq_mod]

/-- Settles O36: the root's index is `high`, unmasked, and every level below is 8-way. -/
theorem pathFormulas : Obligations.PathFormulas := by
  refine fun a => ⟨fun _ => addressPath_eightWay [] a, fun h => ?_, fun h => ?_, fun h => ?_, fun h => ?_, fun h => ?_,
    fun h => ?_⟩
  all_goals
    rw [addressPath_root h]
    simp only [addressPath_eightWay]
    rfl

theorem msbFirstIndex_concat (a : List Bit) (b : Bit) : msbFirstIndex (a ++ [b]) = 2 * msbFirstIndex a + b.toNat := by
  rw [msbFirstIndex, List.foldl_append]
  rfl

/-- A list read least significant bit first is the word with those bits. -/
theorem lsbFirstIndex_eq_packBits (a : List Bit) : lsbFirstIndex a = packBits a := by
  induction a with
  | nil => rfl
  | cons b a ih => rw [lsbFirstIndex, packBits, ih]

/-- The reversed list names the same index: the last bit of the address is the first of the selector (rule R125). -/
theorem lsbFirstIndex_reverseSelector (a : List Bit) : lsbFirstIndex (reverseSelector a) = msbFirstIndex a := by
  induction a using List.reverseRecOn with
  | nil => rfl
  | append_singleton a b ih =>
    rw [reverseSelector] at ih ⊢
    rw [List.reverse_concat, lsbFirstIndex, ih, msbFirstIndex_concat, Nat.add_comm]

/-- Settles O48: the value is that of the word whose bits are the reversed list. -/
theorem reversedSelectorNamesTheIndex : Obligations.ReversedSelectorNamesTheIndex := by
  intro a
  have hword : packBits a.reverse = msbFirstIndex a := by
    rw [← lsbFirstIndex_eq_packBits]
    exact lsbFirstIndex_reverseSelector a
  have hbits : wordBits a.length (msbFirstIndex a) = a.reverse := by
    rw [← hword, ← List.length_reverse, wordBits_packBits]
  refine ⟨lsbFirstIndex_reverseSelector a, ?_, fun j hj => ?_⟩
  · rw [← hword, ← List.length_reverse]
    exact packBits_lt a.reverse
  · have hrev : j = a.length - 1 - (a.length - 1 - j) := by omega
    have hlt : a.length - 1 - j < a.length := by omega
    calc a[j]? = a.reverse[a.length - 1 - j]? := by rw [List.getElem?_reverse hlt, ← hrev]
      _ = (wordBits a.length (msbFirstIndex a))[a.length - 1 - j]? := by rw [hbits]
      _ = some ((msbFirstIndex a).testBit (a.length - 1 - j)) := by simp [wordBits, hlt]

end Sys2Proof.Machine
end

section
/-! PROOFS. The operations of a tree, register by register (rules R126 to R133): every path and every address leads to
one register, and a tick acts on that register alone. -/

namespace Sys2Proof.Machine

/-- The view of a leaf does not depend on its schedule (rule R41). -/
theorem MemoryNode.view_leaf (sched : List Nat) (regs : List WordRegister) (a : Nat) :
    (MemoryNode.leaf regs).view sched a = (regs[a]?.map WordRegister.val).getD 0 := by
  cases sched <;> rfl

/-- The view of an internal node is that of the child `high` at `low` (rule R41). -/
theorem MemoryNode.view_internal {s a : Nat} {rest : List Nat} {children : Children} {c : MemoryNode}
    (hc : children.toList[highSegment rest.sum a]? = some c) :
    (MemoryNode.internal children).view (s :: rest) a = c.view rest (lowSegment rest.sum a) := by
  rw [MemoryNode.view, List.getElem?_map, hc]
  rfl

theorem MemoryNode.registerAt_leaf (regs : List WordRegister) (h : Nat) :
    (MemoryNode.leaf regs).registerAt [h] = regs[h]? := rfl

theorem MemoryNode.registerAt_internal (children : Children) (h : Nat) (path : List Nat) :
    (MemoryNode.internal children).registerAt (h :: path) = children.toList[h]?.bind (registerAt path) := by
  cases path <;> rfl

/-- Every address of a node has its register, of the node's width, at the end of its path (rules R132, R41). -/
theorem MemoryNode.registerAt_addressPath {width : Nat} (sched : List Nat) {n : MemoryNode}
    (h : n.wf width sched = true) {a : Nat} (ha : a < 2 ^ sched.sum) :
    ∃ reg, n.registerAt (addressPath sched a) = some reg ∧ reg.bits.length = width ∧ reg.val = n.view sched a := by
  induction sched generalizing n a with
  | nil => rcases MemoryNode.wf_cases h with ⟨_, hs, _⟩ | ⟨_, _, _, _, hs, _⟩ <;> cases hs
  | cons s rest ih =>
    rw [List.sum_cons] at ha
    rw [addressPath_internal ha]
    rcases MemoryNode.wf_cases h with ⟨regs, hs, rfl, hlen, hw⟩ | ⟨_, _, _, children, hs, rfl, hlen, hc⟩
    · obtain ⟨rfl, rfl⟩ := List.cons.inj hs
      have hlt : a < regs.length := by rw [hlen]; exact ha
      refine ⟨regs[a], List.getElem?_eq_getElem hlt, hw _ (List.getElem_mem hlt), ?_⟩
      rw [MemoryNode.view_leaf, List.getElem?_eq_getElem hlt]
      rfl
    · obtain ⟨rfl, rfl⟩ := List.cons.inj hs
      have hlt := hlen ▸ highSegment_lt ha
      have hchild := List.getElem?_eq_getElem hlt
      rw [MemoryNode.registerAt_internal, hchild, MemoryNode.view_internal hchild]
      exact ih (hc _ (List.getElem_mem hlt)) (lowSegment_lt _ a)

/-- The register at the end of any path after a tick: that of the address's own path is ticked with the enable, every
other is as it was (rules R130, R132). -/
theorem MemoryNode.registerAt_tick {width : Nat} (sched : List Nat) {n : MemoryNode} (h : n.wf width sched = true)
    (v : Nat) {a : Nat} (ha : a < 2 ^ sched.sum) (we : Bit) (path : List Nat) :
    (n.tick sched v a we).2.registerAt path =
      (n.registerAt path).map (fun r => if path = addressPath sched a then (r.tick v we).2 else r) := by
  rw [MemoryNode.tick_eq_tickSelected sched h]
  induction sched generalizing n a path with
  | nil => rcases MemoryNode.wf_cases h with ⟨_, hs, _⟩ | ⟨_, _, _, _, hs, _⟩ <;> cases hs
  | cons s rest ih =>
    rw [List.sum_cons] at ha
    rw [addressPath_internal ha]
    rcases MemoryNode.wf_cases h with ⟨regs, hs, rfl, hlen, hw⟩ | ⟨_, t, rest', children, hs, rfl, hlen, hc⟩
    · obtain ⟨rfl, rfl⟩ := List.cons.inj hs
      have hlt : a < regs.length := by rw [hlen]; exact ha
      have haddr : highSegment ([] : List Nat).sum a = a := rfl
      rw [MemoryNode.tickSelected, List.getElem?_eq_getElem hlt, haddr]
      match path with
      | [] => rfl
      | _ :: _ :: _ => rfl
      | [k] =>
        simp only [MemoryNode.registerAt_leaf, List.getElem?_set, addressPath]
        by_cases hk : a = k
        · subst hk; simp [hlt]
        · simp [hk, Ne.symm hk]
    · obtain ⟨rfl, rfl⟩ := List.cons.inj hs
      have hlt := hlen ▸ highSegment_lt ha
      have hchild := List.getElem?_eq_getElem hlt
      simp only [MemoryNode.tickSelected, hchild]
      match path with
      | [] => rfl
      | k :: path =>
        simp only [MemoryNode.registerAt_internal, Children.toList_ofList, List.getElem?_set]
        by_cases hk : highSegment (t :: rest').sum a = k
        · subst hk
          simpa only [hchild, hlt, if_true, Option.bind_some, List.cons.injEq, true_and] using
            ih (hc _ (List.getElem_mem hlt)) (lowSegment_lt _ a) path
        · simp only [hk, Ne.symm hk, if_false, List.cons.injEq, false_and, Option.map_id_fun', id_eq]

/-- A tick keeps a tree constructible. -/
theorem Ram.wf_tick {r : Ram} (hw : (Component.memoryNode r).wf = true) (v a : Nat) (we : Bit) :
    (Component.memoryNode (r.tick v a we).2).wf = true := by
  obtain ⟨hshape, hroot⟩ := Ram.wf_iff.mp hw
  exact Ram.wf_iff.mpr ⟨hshape, MemoryNode.wf_tick _ hroot v a we⟩

/-- Settles O28: the meanings' equations, the two cases of the view, and the decoding of the words. -/
theorem ramPeekAndReset : Obligations.RamPeekAndReset := by
  intro s m r v a load low hr hw hv ha
  refine ⟨exec_ramPeek hr ha, fun regs reg hroot hreg => ?_, fun S rest children c hsched hroot hc => ?_, ?_, rfl, rfl,
    decode_peekWord (sh := .memoryNode r.width r.sched) ha hv load,
    decode_resetWord (sh := .memoryNode r.width r.sched) ha hv low⟩
  · rw [Ram.view, hroot, MemoryNode.view_leaf, hreg]
    rfl
  · rw [Ram.view, hroot, hsched, MemoryNode.view_internal hc]
  · rw [exec_ramReset hr, Ram.reset, MemoryNode.reset_eq_zero _ (Ram.wf_iff.mp hw).2]
    rfl

/-- A leaf's tick, with the one register that commits (rule R126). -/
theorem MemoryNode.tick_leaf {width : Nat} {regs : List WordRegister} {r : WordRegister} {a : Nat}
    (hlen : regs.length = 8) (hw : ∀ r' ∈ regs, r'.bits.length = width) (hr : regs[a]? = some r) (v : Nat) (we : Bit) :
    (MemoryNode.leaf regs).tick [3] v a we =
      (r.val, .leaf (if we then regs.set a (.ofWord width v) else regs)) := by
  rw [MemoryNode.tick_eq_tickSelected [3] (MemoryNode.wf_leaf.mpr ⟨hlen, hw⟩), MemoryNode.tickSelected, hr]
  cases we with
  | false => simp [WordRegister.tick_eq, set_self hr]
  | true => simp [WordRegister.tick_eq, hw r (List.mem_of_getElem? hr)]

/-- Settles O29: the meaning's equation with the leaf's tick expanded, and the word's decoding. -/
theorem leafTick : Obligations.LeafTick := by
  intro s m width regs r v a we h hlen hw hr hv
  have ha : a < 2 ^ 3 := by
    obtain ⟨hlt, _⟩ := List.getElem?_eq_some_iff.mp hr
    omega
  refine ⟨?_, rfl, decode_tickWord (sh := .memoryNode width [3]) ha hv we⟩
  rw [exec_ramTick h hv ha, Ram.tick, MemoryNode.tick_leaf hlen hw hr, WordRegister.ofWord_eq]
  rfl

/-- Settles O30: zipped with the demultiplexer's enables, child `k` is ticked with the enable where `k` is `high`, with 0
elsewhere; the multiplexer takes the output of `high`. -/
theorem internalNodeTicksEveryChild : Obligations.InternalNodeTicksEveryChild := by
  intro S rest children v a we hlen _
  refine ⟨_, _, rfl, ?_, fun k c hc => ?_, fun c hc => ?_⟩
  · simp [hlen]
  · rw [Children.toList_ofList, ← hlen, zipWith_dmux, List.getElem?_map, List.getElem?_mapIdx, hc]
    rfl
  · rw [← hlen, mux_zipWith_dmux, highSegment, hc]
    rfl

/-- Settles O31: the frame of a tick over all paths (`registerAt_tick`), and the register at the address's own path. -/
theorem tickChangesOneRegister : Obligations.TickChangesOneRegister := by
  intro s m r v a we hr hw hv ha
  obtain ⟨_, hroot⟩ := Ram.wf_iff.mp hw
  obtain ⟨reg, hreg, hwidth, _⟩ := MemoryNode.registerAt_addressPath _ hroot ha
  have hafter := MemoryNode.registerAt_tick _ hroot v ha we
  refine ⟨_, (r.root.tick r.sched v a we).2, exec_ramTick hr hv ha we, rfl, fun path hpath => ?_,
    reg, (reg.tick v we).2, hreg, ?_, ?_⟩
  · simp [hafter, hpath]
  · simp [hafter, hreg]
  · exact Register.tick_val (r := .bitArray reg) (hwidth.symm ▸ hv : v < 2 ^ reg.bits.length) we

/-- Settles O32, by induction on the schedule (`registerAt_addressPath`). -/
theorem pathLeadsToTheAddressedRegister : Obligations.PathLeadsToTheAddressedRegister :=
  fun _ _ hw ha => MemoryNode.registerAt_addressPath _ (Ram.wf_iff.mp hw).2 ha

/-- Settles O33: a disabled tick only reads, and the short-circuited tick is the normative one. -/
theorem disabledTickHolds : Obligations.DisabledTickHolds :=
  fun _ _ _ v a we hr hw hv ha =>
    ⟨exec_ramTick_disabled hr hw hv ha, MemoryNode.tick_eq_tickSelected _ (Ram.wf_iff.mp hw).2 v a we⟩

/-- Settles O34: the tick returns the view before it, and the reads after it return the view of the ticked tree. -/
theorem treeReadsBeforeItWrites : Obligations.TreeReadsBeforeItWrites := by
  intro s m r v x a we hr hw hv hx ha
  have hticked := State.commit_lookup hr (.memoryNode (r.tick v a we).2) (some (r.view a))
  have hview : (r.tick v a we).2.view a = if we then v else r.view a := by simp [Ram.tick_view hw hv ha]
  exact ⟨_, _, _, _, exec_ramPeek hr ha, rfl, exec_ramTick_view hr hw hv ha we, rfl, exec_ramPeek hticked ha,
    by rw [State.emit_returned, hview], exec_ramTick_disabled hticked (Ram.wf_tick hw v a we) hx ha,
    by rw [State.emit_returned, hview]⟩

end Sys2Proof.Machine
end

section
/-! PROOFS. `RAM.RANDOMIZE`: the draw, which is any injective one, and what it leaves in a leaf (rules R135 to R137,
decision D14). -/

namespace Sys2Proof.Machine

/-- The words of `width` bits not yet drawn, in rising order, from which `drawWords` takes the next one. -/
def undrawn (width : Nat) (used : List Nat) : List Nat :=
  (List.range (2 ^ width)).filter (fun w => !used.contains w)

theorem drawWords_cons (width n : Nat) (ns used : List Nat) : drawWords width (n :: ns) used =
    (undrawn width used)[n % (undrawn width used).length]?.getD 0 ::
      drawWords width ns ((undrawn width used)[n % (undrawn width used).length]?.getD 0 :: used) := rfl

theorem mem_undrawn {width w : Nat} {used : List Nat} : w ∈ undrawn width used ↔ w < 2 ^ width ∧ w ∉ used := by
  simp [undrawn]

/-- While fewer than `2^W` words are drawn, one is left. -/
theorem undrawn_ne_nil {width : Nat} {used : List Nat} (h : used.length < 2 ^ width) : undrawn width used ≠ [] := by
  intro hnil
  have hall : List.range (2 ^ width) ⊆ used := by
    intro w hw
    by_contra hmem
    have : w ∈ undrawn width used := mem_undrawn.mpr ⟨List.mem_range.mp hw, hmem⟩
    rw [hnil] at this
    cases this
  have hle := (List.nodup_range.subperm hall).length_le
  rw [List.length_range] at hle
  omega

/-- The word that a number picks is one not yet drawn. -/
theorem pick_mem_undrawn {width : Nat} {used : List Nat} (h : used.length < 2 ^ width) (n : Nat) :
    (undrawn width used)[n % (undrawn width used).length]?.getD 0 ∈ undrawn width used := by
  have hlt : n % (undrawn width used).length < (undrawn width used).length :=
    Nat.mod_lt _ (List.length_pos_iff.mpr (undrawn_ne_nil h))
  rw [List.getElem?_eq_getElem hlt, Option.getD_some]
  exact List.getElem_mem hlt

/-- The drawn words are distinct, and distinct from those drawn before, as long as there are words left. -/
theorem drawWords_distinct {width : Nat} {numbers used : List Nat} (h : numbers.length + used.length ≤ 2 ^ width) :
    (drawWords width numbers used).Nodup ∧ ∀ w ∈ drawWords width numbers used, w < 2 ^ width ∧ w ∉ used := by
  induction numbers generalizing used with
  | nil => exact ⟨List.nodup_nil, nofun⟩
  | cons n ns ih =>
    rw [List.length_cons] at h
    have hpick := pick_mem_undrawn (width := width) (used := used) (by omega) n
    rw [drawWords_cons]
    generalize (undrawn width used)[n % (undrawn width used).length]?.getD 0 = w at hpick
    obtain ⟨hnodup, hrest⟩ := ih (used := w :: used) (by rw [List.length_cons]; omega)
    refine ⟨List.nodup_cons.mpr ⟨fun hw => ?_, hnodup⟩, fun x hx => ?_⟩
    · exact (hrest w hw).2 List.mem_cons_self
    · rcases List.mem_cons.mp hx with rfl | hx
      · exact mem_undrawn.mp hpick
      · exact ⟨(hrest x hx).1, fun hused => (hrest x hx).2 (List.mem_cons_of_mem w hused)⟩

/-- Settles O41: from no words drawn before. -/
theorem drawnWordsAreDistinct : Obligations.DrawnWordsAreDistinct := by
  intro width numbers h
  obtain ⟨hnodup, hfits⟩ := drawWords_distinct (used := []) h
  exact ⟨drawWords_length width numbers [], hnodup, fun w hw => (hfits w hw).1⟩

/-- Every list of distinct words not yet drawn comes out for some numbers: each word's number is its place among the
words that are left. -/
theorem exists_numbers {width : Nat} {draws used : List Nat} (hnodup : draws.Nodup)
    (hfree : ∀ w ∈ draws, w ∈ undrawn width used) : ∃ numbers, drawWords width numbers used = draws := by
  induction draws generalizing used with
  | nil => exact ⟨[], rfl⟩
  | cons w draws ih =>
    obtain ⟨hw, hnodup⟩ := List.nodup_cons.mp hnodup
    have hrest : ∀ x ∈ draws, x ∈ undrawn width (w :: used) := by
      intro x hx
      obtain ⟨hlt, hunused⟩ := mem_undrawn.mp (hfree x (List.mem_cons_of_mem w hx))
      have hne : x ≠ w := fun he => hw (he ▸ hx)
      exact mem_undrawn.mpr ⟨hlt, List.not_mem_cons_of_ne_of_not_mem hne hunused⟩
    obtain ⟨numbers, hnumbers⟩ := ih hnodup hrest
    obtain ⟨n, hn, hget⟩ := List.mem_iff_getElem.mp (hfree w List.mem_cons_self)
    refine ⟨n :: numbers, ?_⟩
    rw [drawWords_cons, Nat.mod_eq_of_lt hn, List.getElem?_eq_getElem hn, hget, Option.getD_some, hnumbers]

/-- Settles O42: every word of `W` bits is undrawn at the start. -/
theorem everyInjectiveDrawComesOut : Obligations.EveryInjectiveDrawComesOut :=
  fun _ _ hnodup hfits => exists_numbers hnodup fun w hw => mem_undrawn.mpr ⟨hfits w hw, List.not_mem_nil⟩

/-- The draws of `randomize` are distinct words, at the widths that have eight (rule R136). -/
theorem draw_distinct {width : Nat} (hW : 3 ≤ width) (n : Nat) :
    (draw width n).Nodup ∧ ∀ w ∈ draw width n, w < 2 ^ width := by
  have hcap : 2 ^ 3 ≤ 2 ^ width := Nat.pow_le_pow_right (by omega) hW
  obtain ⟨-, hnodup, hfits⟩ := drawnWordsAreDistinct width ((List.range 8).map (Config.freeDraw n)) (by simpa using hcap)
  exact ⟨hnodup, hfits⟩

/-- At a fixed capacity the table's schedule is the only one (rule R123). -/
theorem Shape.sched_of_fixed {width : Nat} {sched : List Nat} (h : (Shape.memoryNode width sched).wf = true)
    (hfixed : sched.sum ∈ Config.fixedAddressWidths) : sched = Config.sched sched.sum := by
  simp only [Shape.wf, Bool.and_eq_true, List.contains_iff_mem.mpr hfixed, Bool.not_true, Bool.false_or,
    beq_iff_eq] at h
  exact h.2

/-- A tree is a leaf exactly where its address width is 3 (rule R121). -/
theorem Ram.root_cases {r : Ram} (hw : (Component.memoryNode r).wf = true) :
    (r.addressWidth = 3 ∧ ∃ regs, r.root = .leaf regs ∧ regs.length = 8 ∧ ∀ reg ∈ regs, reg.bits.length = r.width) ∨
    (r.addressWidth ≠ 3 ∧ ∃ children, r.root = .internal children) := by
  obtain ⟨hshape, hroot⟩ := Ram.wf_iff.mp hw
  rcases MemoryNode.wf_cases hroot with ⟨regs, hsched, hleaf, hregs⟩ | ⟨s, t, rest, children, hsched, hinternal, _⟩
  · exact .inl ⟨by rw [Ram.addressWidth, hsched]; rfl, regs, hleaf, hregs⟩
  · refine .inr ⟨fun h3 => ?_, children, hinternal⟩
    rw [Ram.addressWidth] at h3
    have hleaf := Shape.sched_of_fixed hshape (by rw [h3]; decide)
    rw [h3, hsched] at hleaf
    cases hleaf

/-- Each register holds the word drawn for it, whatever it held (rule R135). -/
theorem randomizeRegisters_eq {width : Nat} {draws : List Nat} {regs : List WordRegister}
    (hlen : regs.length = draws.length) (hw : ∀ reg ∈ regs, reg.bits.length = width) :
    randomizeRegisters draws regs = draws.map (WordRegister.ofWord width) := by
  refine List.ext_getElem (by simp [randomizeRegisters, hlen]) fun k hk hk' => ?_
  simp [randomizeRegisters, WordRegister.tick_eq, hw]

/-- A leaf of drawn words reads as the draw. -/
theorem MemoryNode.view_drawn {width : Nat} {draws : List Nat} (hfits : ∀ w ∈ draws, w < 2 ^ width)
    (sched : List Nat) {k : Nat} (hk : k < draws.length) :
    some ((MemoryNode.leaf (draws.map (WordRegister.ofWord width))).view sched k) = draws[k]? := by
  rw [MemoryNode.view_leaf, List.getElem?_map, List.getElem?_eq_getElem hk]
  exact congrArg some (WordRegister.ofWord_val (hfits _ (List.getElem_mem hk)))

/-- `randomize` on a leaf, with the leaf it leaves (rule R135). -/
theorem randomizeWith_drawn {s : State} {m : Nat} {r : Ram} (hr : s.components[m]? = some (.memoryNode r))
    (hw : (Component.memoryNode r).wf = true) (h3 : r.addressWidth = 3) (hW : 3 ≤ r.width) {draws : List Nat}
    (hlen : draws.length = 8) :
    randomizeWith draws m s = .next ({ s with draws := s.draws + 1 }.commit m
      (.memoryNode { r with root := .leaf (draws.map (.ofWord r.width)) }) none) := by
  rcases Ram.root_cases hw with ⟨_, regs, hroot, hregs, hwidth⟩ | ⟨hne, _⟩
  · rw [randomizeWith_leaf hr hroot hW, randomizeRegisters_eq (hregs.trans hlen.symm) hwidth]
  · exact absurd h3 hne

theorem exec_ramRandomize_eq {s : State} {m : Nat} {r : Ram} (hr : s.components[m]? = some (.memoryNode r)) :
    exec (.ramRandomize m) s = randomizeWith (draw r.width s.draws) m s := by
  rw [exec, execRamRandomize, State.ramWidth, hr]

/-- Settles O38: the step supplies an injective draw, and the leaf left holds it. -/
theorem randomizeOverwritesTheLeaf : Obligations.RandomizeOverwritesTheLeaf := by
  intro s m r hr hw h3 hW
  have hlen := draw_length r.width s.draws
  obtain ⟨hnodup, hfits⟩ := draw_distinct hW s.draws
  have hexec := (exec_ramRandomize_eq hr).trans (randomizeWith_drawn hr hw h3 hW hlen)
  obtain ⟨c, hc, -, hwf⟩ := exec_keeps_component hexec hr hw
  obtain rfl := Option.some.inj ((State.commit_lookup (s := { s with draws := s.draws + 1 }) hr _ none).symm.trans hc)
  exact ⟨_, _, draw r.width s.draws, hexec, hlen, hnodup, hfits, rfl, rfl, rfl, hwf,
    fun k hk => MemoryNode.view_drawn hfits r.sched (hlen ▸ hk), rfl, rfl, rfl⟩

/-- Settles O39: the leaf left by the draw reads as the draw. -/
theorem randomizeWithAnyDraw : Obligations.RandomizeWithAnyDraw := by
  intro s m r draws hr hw h3 hW hlen _ hfits
  refine ⟨_, randomizeWith_drawn hr hw h3 hW hlen, rfl, fun k hk => ?_⟩
  rw [State.commit_view (s := { s with draws := s.draws + 1 }) hr]
  exact MemoryNode.view_drawn hfits r.sched (hlen ▸ hk)

/-- Settles O40: what the component is decides the refusal: no MemoryNode, an internal node, or a narrow leaf. -/
theorem randomizeRefusedElsewhere : Obligations.RandomizeRefusedElsewhere := by
  intro s m c hc hw
  cases c with
  | memoryNode r =>
    have hleaf : (Component.memoryNode r).shape.isLeaf = true ↔ r.addressWidth = 3 := by
      simp [Component.shape, Shape.isLeaf, Shape.isMemoryNode, Shape.addressFieldWidth, Ram.addressWidth]
    rw [exec_ramRandomize_eq hc, randomizeWith, State.onRam_some hc]
    rcases Ram.root_cases hw with ⟨h3, regs, hroot, _⟩ | ⟨hne, children, hroot⟩
    · rw [hroot]
      exact ⟨fun _ h => absurd (hleaf.mpr h3) (by simp [h]), fun _ hW => if_neg (Nat.not_le.mpr hW), nofun⟩
    · rw [hroot]
      exact ⟨fun _ _ => rfl, fun h => absurd (hleaf.mp h) hne, nofun⟩
  | register r =>
    cases r <;> exact ⟨nofun, nofun, fun _ => by rw [exec, execRamRandomize, randomizeWith, State.onRam, hc]⟩
  | delayCell | loadableBit | flatRam =>
    exact ⟨nofun, nofun, fun _ => by rw [exec, execRamRandomize, randomizeWith, State.onRam, hc]⟩

end Sys2Proof.Machine
end

section
/-! PROOFS. The machine's invariant (rules R24 to R27, R60, R158): it holds at creation and every step keeps it. -/

namespace Sys2Proof.Machine

theorem State.wf_iff {s : State} :
    s.wf = true ↔ (∀ c ∈ s.components, c.wf = true) ∧ ∀ r ∈ s.returned, s.returnedFits r = true := by
  simp [State.wf]

/-- A created component fits its shape. -/
theorem Component.wf_created {sh : Shape} (h : sh.wf = true) : (Component.created sh).wf = true := by
  cases sh with
  | delayCell | loadableBit => rfl
  | wordRegister w =>
    rw [Component.created, Component.wf, WordRegister.zero_length]
    exact h
  | flatRegister w => exact Register.wf_iff.mpr ⟨of_decide_eq_true h, Nat.two_pow_pos w⟩
  | memoryNode w sched =>
    have hsched : schedOk sched = true := by
      simp only [Shape.wf, Bool.and_eq_true] at h
      exact h.1.2
    exact Ram.wf_iff.mpr ⟨h, MemoryNode.wf_zero hsched⟩
  | flatRam w a aw => exact FlatRam.wf_iff.mpr ⟨h, Memory.wf_nil, Memory.within_nil w _⟩

/-- A reset leaves a constructible tree or FlatRam: the created one of its shape (rules R133, R153). -/
theorem Ram.wf_reset {r : Ram} (hw : (Component.memoryNode r).wf = true) :
    (Component.memoryNode r.reset).wf = true := by
  obtain ⟨hshape, hroot⟩ := Ram.wf_iff.mp hw
  rw [Ram.reset, MemoryNode.reset_eq_zero _ hroot]
  exact Component.wf_created hshape

theorem FlatRam.wf_reset {r : FlatRam} (hw : (Component.flatRam r).wf = true) :
    (Component.flatRam r.reset).wf = true :=
  Component.wf_created (FlatRam.wf_iff.mp hw).1

/-- Settles O10: every created component fits its shape and no word is returned yet; the shapes of the reset list are
constructible. -/
theorem creationIsWellFormed : Obligations.CreationIsWellFormed := by
  have hcreated : ∀ shapes : List Shape, shapes.all Shape.wf = true → (State.created shapes).wf = true := by
    intro shapes h
    refine State.wf_iff.mpr ⟨fun c hc => ?_, nofun⟩
    obtain ⟨sh, hsh, rfl⟩ := List.mem_map.mp hc
    exact Component.wf_created (List.all_eq_true.mp h sh hsh)
  exact ⟨hcreated Config.created (by decide), hcreated⟩

/-- Whether a returned word fits depends on the components' shapes alone. -/
theorem State.returnedFits_eq (s : State) (r : Returned) : s.returnedFits r =
    (s.components.map Component.shape)[r.component]?.any (fun sh => Word.fits sh.inWidth r.word) := by
  rw [State.returnedFits, List.getElem?_map]
  cases s.components[r.component]? <;> rfl

/-- An operation keeps the invariant: the component it commits is as it can be, and the word it returns has that
component's width. -/
theorem exec_keeps_wf {i : Instr} {s t : State} (hs : s.wf = true) (h : exec i s = .next t) : t.wf = true := by
  obtain ⟨hcomps, hwords⟩ := State.wf_iff.mp hs
  have hshapes := exec_shapes h
  obtain ⟨c, c', out, hc, hcomp, hret, _, hp⟩ := exec_next h
  have hw := State.wf_component hs hc
  refine State.wf_iff.mpr ⟨fun k hk => ?_, fun r hr => ?_⟩
  · rw [hcomp] at hk
    rcases List.mem_or_eq_of_mem_set hk with hk | rfl
    · exact hcomps k hk
    · exact hp.wf hw
  · rw [hret] at hr
    rw [State.returnedFits_eq, hshapes, ← State.returnedFits_eq]
    rcases List.mem_append.mp hr with hnew | hold
    · obtain ⟨w, hword, rfl⟩ := Option.map_eq_some_iff.mp (Option.mem_toList.mp hnew)
      rw [State.returnedFits, hc]
      exact (Word.fits_iff _ _).mpr (hp.out hw w hword)
    · exact hwords r hold

/-- Settles O51: a step keeps the state or performs one operation, and an operation keeps the invariant, which the trace
has no part in. -/
theorem stepKeepsWellFormedness : Obligations.StepKeepsWellFormedness := by
  intro s t hs h
  rcases step_next h with ⟨_, rfl⟩ | ⟨_, rest, _, _, _, _, _, hexec⟩
  · exact hs
  · exact exec_keeps_wf (s := { s with trace := rest }) hs hexec

end Sys2Proof.Machine
end

section
/-! PROOFS. The FlatRam (rules R150 to R154): its tick on the stored memory, the wrap of an address, and the decoding of
its command words. -/

namespace Sys2Proof.Machine

/-- A tick replaces the memory of a FlatRam and keeps its parameters (rule R151). -/
theorem FlatRam.tick_snd (v a : Nat) (we : Bit) (r : FlatRam) :
    (r.tick v a we).2 = { r with mem := (r.tick v a we).2.mem } := by cases we <;> rfl

/-- A tick with a word of the width keeps a FlatRam constructible and its memory canonical. -/
theorem FlatRam.wf_tick {r : FlatRam} (hw : (Component.flatRam r).wf = true) {v : Nat} (hv : v < 2 ^ r.width) (a : Nat)
    (we : Bit) : (Component.flatRam (r.tick v a we).2).wf = true := by
  obtain ⟨hshape, hmem, hin⟩ := FlatRam.wf_iff.mp hw
  cases we with
  | false => exact hw
  | true =>
    exact FlatRam.wf_iff.mpr ⟨hshape, Memory.wf_write hmem _ v, Memory.within_write hin (r.location_lt a) hv⟩

/-- An address and its low `A` bits name one location (rule R154). -/
theorem FlatRam.location_mod (r : FlatRam) (a : Nat) : r.location (a % 2 ^ r.addressWidth) = r.location a :=
  Nat.mod_mod a _

/-- Settles O43: the meaning's equation, the memory law of a tick, the invariant it keeps, and the word's decoding. -/
theorem flatRamTick : Obligations.FlatRamTick := by
  intro s m r v a we h hw hv ha
  obtain ⟨_, hmem, _⟩ := FlatRam.wf_iff.mp (FlatRam.wf_tick hw hv a we)
  refine ⟨(r.tick v a we).2.mem, ?_, hmem, FlatRam.tick_view hw v a we, fun hwe => by rw [hwe]; rfl, rfl,
    decode_tickWord (sh := .flatRam r.width r.addressWidth r.portWidth) ha hv we⟩
  rw [exec_framTick h hv ha, FlatRam.tick_snd]
  rfl

/-- Settles O44: the equations of both meanings, and the decoding of their words. -/
theorem flatRamPeekAndReset : Obligations.FlatRamPeekAndReset := fun _ _ r _ _ load low h hv ha =>
  ⟨exec_framPeek h ha, exec_framReset h, Memory.read_nil, rfl, rfl,
    decode_peekWord (sh := .flatRam r.width r.addressWidth r.portWidth) ha hv load,
    decode_resetWord (sh := .flatRam r.width r.addressWidth r.portWidth) ha hv low⟩

/-- Settles O45: both addresses are values of the port and name one location, and nothing else of an address is used. -/
theorem flatAddressesWrap : Obligations.FlatAddressesWrap := by
  intro s m r v a we h hw ha
  have hwrap : a % 2 ^ r.addressWidth < 2 ^ r.portWidth :=
    Nat.lt_of_lt_of_le (r.location_lt a) (FlatRam.capacity_le_port hw)
  have hfits : Word.fits r.portWidth a = Word.fits r.portWidth (a % 2 ^ r.addressWidth) := by
    rw [(Word.fits_iff _ _).mpr ha, (Word.fits_iff _ _).mpr hwrap]
  refine ⟨?_, ?_, FlatRam.location_of_lt⟩
  · simp only [exec, execFramTick, State.onFlatRam_some h, FlatRam.tick, FlatRam.location_mod, hfits]
  · rw [exec_framPeek h ha, exec_framPeek h hwrap, FlatRam.location_mod]

end Sys2Proof.Machine
end

section
/-! PROOFS. The tree and the FlatRam (rule R155): a relation between the two that one operation on either side keeps,
and so any run of operations. -/

namespace Sys2Proof.Machine

/-- The tree `r` and the FlatRam `f`, both constructible, have word width `W` and address width `A`, the FlatRam a port
of `AW` bits, and they hold the same words. -/
structure Mirrors (W A AW : Nat) (r : Ram) (f : FlatRam) : Prop where
  treeWf : (Component.memoryNode r).wf = true
  flatWf : (Component.flatRam f).wf = true
  treeWidth : r.width = W
  flatWidth : f.width = W
  treeAddressWidth : r.addressWidth = A
  flatAddressWidth : f.addressWidth = A
  portWidth : f.portWidth = AW
  view : ∀ a < 2 ^ A, f.view a = r.view a

section
variable {W A AW : Nat} {r : Ram} {f : FlatRam} (h : Mirrors W A AW r f)
include h

theorem Mirrors.location (a : Nat) : f.location a = a % 2 ^ A := by
  rw [FlatRam.location, FlatRam.capacity, h.flatAddressWidth]

/-- A wrapped address is one of the tree's. -/
theorem Mirrors.wrap_lt (a : Nat) : a % 2 ^ A < 2 ^ r.addressWidth :=
  h.treeAddressWidth.symm ▸ Nat.mod_lt a (Nat.two_pow_pos A)

/-- The FlatRam reads at an address of its port what the tree reads at that address `mod 2^A`. -/
theorem Mirrors.view_location (a : Nat) : f.view (f.location a) = r.view (a % 2 ^ A) := by
  rw [h.location, h.view _ (Nat.mod_lt a (Nat.two_pow_pos A))]

theorem Mirrors.tick {v : Nat} (hv : v < 2 ^ W) (a : Nat) (we : Bit) :
    Mirrors W A AW (r.tick v (a % 2 ^ A) we).2 (f.tick v a we).2 where
  treeWf := Ram.wf_tick h.treeWf v _ we
  flatWf := FlatRam.wf_tick h.flatWf (h.flatWidth.symm ▸ hv) a we
  treeWidth := h.treeWidth
  flatWidth := (FlatRam.tick_width v a we f).trans h.flatWidth
  treeAddressWidth := h.treeAddressWidth
  flatAddressWidth := (FlatRam.tick_addressWidth v a we f).trans h.flatAddressWidth
  portWidth := (FlatRam.tick_portWidth v a we f).trans h.portWidth
  view b hb := by
    have hv' : v < 2 ^ r.width := h.treeWidth.symm ▸ hv
    rw [FlatRam.tick_view h.flatWf, Ram.tick_view h.treeWf hv' (h.wrap_lt a), h.location, h.view b hb]

theorem Mirrors.reset : Mirrors W A AW r.reset f.reset where
  treeWf := Ram.wf_reset h.treeWf
  flatWf := FlatRam.wf_reset h.flatWf
  treeWidth := h.treeWidth
  flatWidth := h.flatWidth
  treeAddressWidth := h.treeAddressWidth
  flatAddressWidth := h.flatAddressWidth
  portWidth := h.portWidth
  view b _ := by rw [FlatRam.reset_view, Ram.reset_view h.treeWf]

/-- One operation commits on both sides with the same returned word, and keeps the relation; a `reset` leaves 0
everywhere. -/
theorem exec_ramOp {s u : State} {m : Nat} (hs : s.components[m]? = some (.memoryNode r))
    (hu : u.components[m]? = some (.flatRam f)) {op : RamOp} (ht : op.typed W AW = true) :
    ∃ r' f' out, exec ((op.wrapped A).onTree m) s = .next (s.commit m (.memoryNode r') out) ∧
      exec (op.onFlat m) u = .next (u.commit m (.flatRam f') out) ∧ Mirrors W A AW r' f' ∧
      (op = .reset → ∀ a, r'.view a = 0) := by
  cases op with
  | tick v a we =>
    simp only [RamOp.typed, Bool.and_eq_true, Word.fits_iff] at ht
    obtain ⟨hv, ha⟩ := ht
    refine ⟨_, _, _, exec_ramTick_view hs h.treeWf (h.treeWidth.symm ▸ hv) (h.wrap_lt a) we, ?_, h.tick hv a we,
      nofun⟩
    rw [← h.view_location]
    exact exec_framTick hu (h.flatWidth.symm ▸ hv) (h.portWidth.symm ▸ ha) we
  | peek a =>
    have ha : a < 2 ^ f.portWidth := h.portWidth.symm ▸ (Word.fits_iff _ _).mp ht
    refine ⟨r, f, some (r.view (a % 2 ^ A)), ?_, ?_, h, nofun⟩
    · rw [State.commit_self hs]
      exact exec_ramPeek hs (h.wrap_lt a)
    · rw [State.commit_self hu, ← h.view_location]
      exact exec_framPeek hu ha
  | reset => exact ⟨_, _, none, exec_ramReset hs, exec_framReset hu, h.reset, fun _ => Ram.reset_view h.treeWf⟩

end

/-- A run of operations completes on both sides, returns the same words and keeps the relation. The operation `last`
before the run stands in for a last one of an empty run: after a `reset` the tree holds 0 everywhere. -/
theorem runOps_ramOps {W A AW m : Nat} {r : Ram} {f : FlatRam} {s u : State} {ops : List RamOp} {last : RamOp}
    (h : Mirrors W A AW r f) (hs : s.components[m]? = some (.memoryNode r)) (hu : u.components[m]? = some (.flatRam f))
    (hret : s.returned = u.returned) (ht : ops.all (RamOp.typed W AW) = true)
    (hlast : last = .reset → ∀ a, r.view a = 0) :
    ∃ s' u' r' f', runOps (ops.map (fun o => (o.wrapped A).onTree m)) s = .next s' ∧
      runOps (ops.map (RamOp.onFlat m)) u = .next u' ∧ s'.returned = u'.returned ∧
      s'.components[m]? = some (.memoryNode r') ∧ u'.components[m]? = some (.flatRam f') ∧ Mirrors W A AW r' f' ∧
      (ops.getLastD last = .reset → ∀ a, r'.view a = 0) := by
  induction ops generalizing r f s u last with
  | nil => exact ⟨s, u, r, f, rfl, rfl, hret, hs, hu, h, hlast⟩
  | cons op ops ih =>
    rw [List.all_cons, Bool.and_eq_true] at ht
    obtain ⟨r₁, f₁, out, htree, hflat, h₁, hreset⟩ := exec_ramOp h hs hu ht.1
    rw [List.map_cons, List.map_cons, runOps_cons_of_next htree, runOps_cons_of_next hflat, List.getLastD_cons]
    exact ih h₁ (State.commit_lookup hs _ out) (State.commit_lookup hu _ out) (congrArg (_ ++ ·) hret) ht.2 hreset

/-- Settles O46: equal views are the relation `Mirrors`, which every run of operations keeps. -/
theorem treeAndFlatRamAgree : Obligations.TreeAndFlatRamAgree := by
  intro s u m r f ops hs hu hr hf hwidth haddress hview hret ht
  have h : Mirrors r.width r.addressWidth f.portWidth r f := ⟨hr, hf, rfl, hwidth, rfl, haddress, rfl, hview⟩
  obtain ⟨s', u', r', f', htree, hflat, hret', hs', hu', h', hzero⟩ :=
    runOps_ramOps h hs hu hret ht (last := .peek 0) nofun
  refine ⟨s', u', r', f', htree, hflat, hret', hs', hu', h'.view, fun hlast a _ => hzero ?_ a⟩
  rw [List.getLastD_eq_getLast?, hlast, Option.getD_some]

end Sys2Proof.Machine
end

section
/-! PROOFS. The routing primitives (45_routing_primitives.md): what the multiplexer selects, as a word and bit by bit. -/

namespace Sys2Proof.Machine

/-- The multiplexer gives the selected word (rule R167). -/
theorem mux_eq_getElem {d : List Nat} {sel : Nat} (h : sel < d.length) : mux d sel = d[sel] := by
  rw [mux, List.getElem?_eq_getElem h, Option.getD_some]

/-- A multiplexer of words is one-bit multiplexers side by side (rule R167). It needs no range for the selector: the word
0 given outside the inputs has only 0 bits. -/
theorem mux_testBit (d : List Nat) (sel i : Nat) :
    (mux d sel).testBit i = muxBit (d.map (fun w => w.testBit i)) sel := by
  rw [mux, muxBit, List.getElem?_map]
  cases d[sel]? with
  | none => exact Nat.zero_testBit i
  | some w => rfl

/-- Settles O47: the demultiplexer by its length and its output `k`, the multiplexer by the selected word and its bits. -/
theorem routingPrimitives : Obligations.RoutingPrimitives :=
  ⟨fun F sel x => ⟨dmux_length F x sel, fun _ hk => dmux_getElem? hk x sel⟩,
    fun _ _ h => mux_eq_getElem h,
    fun d sel i _ => mux_testBit d sel i⟩

end Sys2Proof.Machine
end

section
/-! PROOFS. Totality (rules R44, R180): an operation completes exactly where it is one of the component's operations with
operands of their types. -/

namespace Sys2Proof.Machine

/-- What a component is, by its shape (rules R22, R23, R60). -/
theorem Component.delayCell_of_shape {c : Component} (h : c.shape = .delayCell) : ∃ d, c = .delayCell d := by
  cases c with
  | delayCell d => exact ⟨d, rfl⟩
  | register r => cases r <;> cases h
  | loadableBit | memoryNode | flatRam => cases h

theorem Component.loadableBit_of_shape {c : Component} (h : c.shape = .loadableBit) : ∃ b, c = .loadableBit b := by
  cases c with
  | loadableBit b => exact ⟨b, rfl⟩
  | register r => cases r <;> cases h
  | delayCell | memoryNode | flatRam => cases h

theorem Component.isRegister_iff {c : Component} : c.shape.isRegister = true ↔ ∃ r, c = .register r := by
  refine ⟨fun h => ?_, ?_⟩
  · cases c with
    | register r => exact ⟨r, rfl⟩
    | delayCell | loadableBit | memoryNode | flatRam => cases h
  · rintro ⟨_ | _, rfl⟩ <;> rfl

/-- `randomize` is one of a MemoryNode's operations exactly on a leaf of words of at least 3 bits (rules R67, R136). -/
theorem Ram.randomize_wf_iff (m : Nat) (r : Ram) :
    (Instr.ramRandomize m).wf (Component.memoryNode r).shape = true ↔ r.addressWidth = 3 ∧ 3 ≤ r.width := by
  simp only [Instr.wf, Shape.isLeaf, Bool.and_eq_true, beq_iff_eq, decide_eq_true_iff]
  exact ⟨fun ⟨⟨_, h3⟩, hW⟩ => ⟨h3, hW⟩, fun ⟨h3, hW⟩ => ⟨⟨rfl, h3⟩, hW⟩⟩

/-- An operation completes only where it is well-typed: the accessor fixes the component's kind, and the check of the
operands is the one that `Instr.wf` makes. -/
theorem exec_next_typed {i : Instr} {s t : State} {c : Component} (hc : s.components[i.component]? = some c)
    (hw : c.wf = true) (h : exec i s = .next t) : i.wf c.shape = true := by
  cases i with
  | dcTick | dcPeek | dcReset =>
    obtain ⟨d, hd, _⟩ := State.onDelayCell_next h
    obtain rfl : c = .delayCell d := Option.some.inj (hc.symm.trans hd)
    rfl
  | lbTick | lbPeek | lbReset =>
    obtain ⟨b, hb, _⟩ := State.onLoadableBit_next h
    obtain rfl : c = .loadableBit b := Option.some.inj (hc.symm.trans hb)
    rfl
  | wrTick m v we =>
    obtain ⟨r, hr, hk⟩ := State.onRegister_next h
    obtain rfl : c = .register r := Option.some.inj (hc.symm.trans hr)
    rw [Instr.wf, Component.isRegister_iff.mpr ⟨r, rfl⟩, Register.shape_width, Bool.true_and]
    exact (whenTyped_next hk).1
  | wrPeek | wrReset =>
    obtain ⟨r, hr, _⟩ := State.onRegister_next h
    exact Component.isRegister_iff.mpr ⟨r, Option.some.inj (hc.symm.trans hr)⟩
  | ramTick | ramPeek =>
    obtain ⟨r, hr, hk⟩ := State.onRam_next h
    obtain rfl : c = .memoryNode r := Option.some.inj (hc.symm.trans hr)
    exact (whenTyped_next hk).1
  | ramReset =>
    obtain ⟨r, hr, _⟩ := State.onRam_next h
    obtain rfl : c = .memoryNode r := Option.some.inj (hc.symm.trans hr)
    rfl
  | ramRandomize m =>
    obtain ⟨r, regs, hr, hroot, hW, _⟩ := randomizeWith_next h
    obtain rfl : c = .memoryNode r := Option.some.inj (hc.symm.trans hr)
    rcases Ram.root_cases hw with ⟨h3, _⟩ | ⟨_, _, hinternal⟩
    · exact (Ram.randomize_wf_iff m r).mpr ⟨h3, hW⟩
    · cases hroot.symm.trans hinternal
  | framTick | framPeek =>
    obtain ⟨r, hr, hk⟩ := State.onFlatRam_next h
    obtain rfl : c = .flatRam r := Option.some.inj (hc.symm.trans hr)
    exact (whenTyped_next hk).1
  | framReset =>
    obtain ⟨r, hr, _⟩ := State.onFlatRam_next h
    obtain rfl : c = .flatRam r := Option.some.inj (hc.symm.trans hr)
    rfl

/-- A well-typed operation completes (rule R180: no operation "can fail"): the kind it is typed for is the component's,
and there its meaning answers a next state. -/
theorem exec_next_of_typed {i : Instr} {s : State} {c : Component} (hc : s.components[i.component]? = some c)
    (hw : c.wf = true) (hi : i.wf c.shape = true) : ∃ t, exec i s = .next t := by
  cases i with
  | dcTick | dcPeek | dcReset =>
    obtain ⟨d, rfl⟩ := Component.delayCell_of_shape (beq_iff_eq.mp hi)
    exact ⟨_, State.onDelayCell_some hc _⟩
  | lbTick | lbPeek | lbReset =>
    obtain ⟨b, rfl⟩ := Component.loadableBit_of_shape (beq_iff_eq.mp hi)
    exact ⟨_, State.onLoadableBit_some hc _⟩
  | wrTick m v we =>
    simp only [Instr.wf, Bool.and_eq_true, Word.fits_iff] at hi
    obtain ⟨r, rfl⟩ := Component.isRegister_iff.mp hi.1
    exact ⟨_, exec_wrTick hc (Register.shape_width r ▸ hi.2) we⟩
  | wrPeek | wrReset =>
    obtain ⟨r, rfl⟩ := Component.isRegister_iff.mp hi
    exact ⟨_, State.onRegister_some hc _⟩
  | ramTick m v a we =>
    simp only [Instr.wf, Bool.and_eq_true, Word.fits_iff] at hi
    obtain ⟨⟨hkind, hv⟩, ha⟩ := hi
    obtain ⟨r, rfl⟩ := Component.memoryNode_of_shape hkind
    exact ⟨_, exec_ramTick hc hv ha we⟩
  | ramPeek m a =>
    simp only [Instr.wf, Bool.and_eq_true, Word.fits_iff] at hi
    obtain ⟨hkind, ha⟩ := hi
    obtain ⟨r, rfl⟩ := Component.memoryNode_of_shape hkind
    exact ⟨_, exec_ramPeek hc ha⟩
  | ramReset m =>
    obtain ⟨r, rfl⟩ := Component.memoryNode_of_shape hi
    exact ⟨_, exec_ramReset hc⟩
  | ramRandomize m =>
    have hkind : c.shape.isMemoryNode = true := by
      simp only [Instr.wf, Shape.isLeaf, Bool.and_eq_true] at hi
      exact hi.1.1
    obtain ⟨r, rfl⟩ := Component.memoryNode_of_shape hkind
    obtain ⟨h3, hW⟩ := (Ram.randomize_wf_iff m r).mp hi
    exact ⟨_, (exec_ramRandomize_eq hc).trans (randomizeWith_drawn hc hw h3 hW (draw_length _ _))⟩
  | framTick m v a we =>
    simp only [Instr.wf, Bool.and_eq_true, Word.fits_iff] at hi
    obtain ⟨⟨hkind, hv⟩, ha⟩ := hi
    obtain ⟨r, rfl⟩ := Component.flatRam_of_shape hkind
    exact ⟨_, exec_framTick hc hv ha we⟩
  | framPeek m a =>
    simp only [Instr.wf, Bool.and_eq_true, Word.fits_iff] at hi
    obtain ⟨hkind, ha⟩ := hi
    obtain ⟨r, rfl⟩ := Component.flatRam_of_shape hkind
    exact ⟨_, exec_framPeek hc ha⟩
  | framReset m =>
    obtain ⟨r, rfl⟩ := Component.flatRam_of_shape hi
    exact ⟨_, exec_framReset hc⟩

/-- Settles O49: a completed operation was typed, by its inversion; a typed one completes, by its meaning. -/
theorem operationsRunExactlyWhereTyped : Obligations.OperationsRunExactlyWhereTyped :=
  fun _ _ _ hc hw => ⟨fun ⟨_, h⟩ => exec_next_typed hc hw h, exec_next_of_typed hc hw⟩

end Sys2Proof.Machine
end

section
/-! PROOFS. Reset and hazards: a reset component is the created one of its shape (rules R200, R201), and operations that
do not write a word leave it (rule R210). -/

namespace Sys2Proof.Machine

/-- A reset register is the created one of its representation and width (rules R102, R105). -/
theorem Register.reset_eq_created (r : Register) :
    Component.register r.reset = .created (Component.register r).shape := by
  cases r with
  | bitArray r => exact congrArg (Component.register ∘ .bitArray) r.reset_eq_zero
  | flat r => rfl

/-- A reset tree is the created one of its width and schedule (rule R133). -/
theorem Ram.reset_eq_created {r : Ram} (hw : (Component.memoryNode r).wf = true) :
    Component.memoryNode r.reset = .created (Component.memoryNode r).shape := by
  rw [Ram.reset, MemoryNode.reset_eq_zero _ (Ram.wf_iff.mp hw).2]
  rfl

/-- Settles O11: each kind's reset commits, without a word, the component's own reset, and that is the created component
of its shape. -/
theorem resetLeavesTheComponentAsCreated : Obligations.ResetLeavesTheComponentAsCreated := by
  intro s m c hc hw t
  have hcommit : s.commit m (.created c.shape) none = t := rfl
  refine ⟨fun h => ?_, fun h => ?_, fun h => ?_, fun h => ?_, fun h => ?_⟩
  · obtain ⟨d, rfl⟩ := Component.delayCell_of_shape h
    exact exec_dcReset hc
  · obtain ⟨b, rfl⟩ := Component.loadableBit_of_shape h
    exact exec_lbReset hc
  · obtain ⟨r, rfl⟩ := Component.isRegister_iff.mp h
    rw [exec_wrReset hc, Register.reset_eq_created, hcommit]
  · obtain ⟨r, rfl⟩ := Component.memoryNode_of_shape h
    rw [exec_ramReset hc, Ram.reset_eq_created hw, hcommit]
  · obtain ⟨r, rfl⟩ := Component.flatRam_of_shape h
    exact exec_framReset hc

/-- Settles O54: the location holds its present word, and a run of operations that do not write it keeps that
(`State.Holds.after_runOps`, by induction over the run). -/
theorem onlyWritersChangeAWord : Obligations.OnlyWritersChangeAWord := by
  intro s t m a c ops hs hc _ hops hrun
  have hold : s.Holds m c.shape a (s.view m a) := ⟨⟨c, hc, rfl, State.wf_component hs hc⟩, rfl⟩
  exact (hold.after_runOps hops hrun).word

end Sys2Proof.Machine
end

section
/-! PROOFS. The decoder (rules R65 to R68): the words it accepts, what a class reads from a word, and the round trip
through `encode`. -/

namespace Sys2Proof

theorem decode_of_lt {sh : Shape} {w : Nat} (h : w < 2 ^ sh.commandWidth) (m : Nat) :
    decode sh m w =
      operation sh m (ctlClass (ctlField sh w)) ((ctlField sh w).testBit 0) (addressField sh w) (inField sh w) :=
  if_pos h

theorem decode_of_ge {sh : Shape} {w : Nat} (h : 2 ^ sh.commandWidth ≤ w) (m : Nat) :
    decode sh m w = .error .tooWide :=
  if_neg (Nat.not_lt.mpr h)

/-- Only a word of the command's width decodes (rule R65). -/
theorem lt_of_decode_ok {sh : Shape} {m w : Nat} {i : Instr} (h : decode sh m w = .ok i) : w < 2 ^ sh.commandWidth := by
  by_contra hge
  rw [decode_of_ge (Nat.not_lt.mp hge)] at h
  cases h

/-- The round trip, operation by operation. -/
theorem decode_encode {sh : Shape} {i : Instr} (h : i.wf sh = true) : decode sh i.component (encode sh i) = .ok i := by
  cases i with
  | dcTick m x => exact Laws.RoundTrip.dcTick m x sh h
  | dcPeek m => exact Laws.RoundTrip.dcPeek m sh h
  | dcReset m => exact Laws.RoundTrip.dcReset m sh h
  | lbTick m x we => exact Laws.RoundTrip.lbTick m x we sh h
  | lbPeek m => exact Laws.RoundTrip.lbPeek m sh h
  | lbReset m => exact Laws.RoundTrip.lbReset m sh h
  | wrTick m v we => exact Laws.RoundTrip.wrTick m v we sh h
  | wrPeek m => exact Laws.RoundTrip.wrPeek m sh h
  | wrReset m => exact Laws.RoundTrip.wrReset m sh h
  | ramTick m v a we => exact Laws.RoundTrip.ramTick m v a we sh h
  | ramPeek m a => exact Laws.RoundTrip.ramPeek m a sh h
  | ramReset m => exact Laws.RoundTrip.ramReset m sh h
  | ramRandomize m => exact Laws.RoundTrip.ramRandomize m sh h
  | framTick m v a we => exact Laws.RoundTrip.framTick m v a we sh h
  | framPeek m a => exact Laws.RoundTrip.framPeek m a sh h
  | framReset m => exact Laws.RoundTrip.framReset m sh h

/-- Settles O2: the round trip of each operation; and a word that decodes has the command's width. -/
theorem decodeOfEncodeIsTheOperation : Obligations.DecodeOfEncodeIsTheOperation := fun _ _ h =>
  ⟨lt_of_decode_ok (decode_encode h), decode_encode h⟩

theorem addressField_lt (sh : Shape) (w : Nat) : addressField sh w < 2 ^ sh.addressFieldWidth :=
  Nat.mod_lt _ (Nat.two_pow_pos _)

theorem inField_lt (sh : Shape) (w : Nat) : inField sh w < 2 ^ sh.inWidth :=
  Nat.mod_lt _ (Nat.two_pow_pos _)

/-- A leaf, taken apart (rule R121). -/
theorem Shape.leaf_of_isLeaf {sh : Shape} (h : sh.isLeaf = true) :
    ∃ w sched, sh = .memoryNode w sched ∧ sched.sum = 3 := by
  rw [Shape.isLeaf, Bool.and_eq_true, beq_iff_eq] at h
  obtain ⟨hkind, hsum⟩ := h
  cases sh with
  | memoryNode w sched => exact ⟨w, sched, rfl, hsum⟩
  | delayCell | loadableBit | wordRegister | flatRegister | flatRam => cases hkind

/-- `RANDOMIZE` off the leaf is reserved (rule R67). -/
theorem operation_randomize_off_leaf {sh : Shape} (h : sh.isLeaf = false) (m : Nat) (load : Bit) (a v : Nat) :
    operation sh m .randomize load a v = .error .reservedRandomize := by
  cases sh with
  | memoryNode w sched => exact if_neg (beq_eq_false_iff_ne.mp h)
  | delayCell | loadableBit | wordRegister | flatRegister | flatRam => rfl

/-- Every class has an operation on every component, `RANDOMIZE` on the leaf only (rules R66, R67). With operands that
fit their fields it is well-typed, where `RANDOMIZE` has words of at least 3 bits. -/
theorem operation_total {sh : Shape} {cls : CtlClass} {a v : Nat} (hleaf : cls = .randomize → sh.isLeaf = true)
    (ha : a < 2 ^ sh.addressFieldWidth) (hv : v < 2 ^ sh.inWidth) (m : Nat) (load : Bit) :
    ∃ i, operation sh m cls load a v = .ok i ∧ i.component = m ∧
      ((cls = .randomize → 3 ≤ sh.inWidth) → i.wf sh = true) := by
  rw [← Word.fits_iff] at ha hv
  cases cls with
  | randomize =>
    obtain ⟨w, sched, rfl, hsum⟩ := Shape.leaf_of_isLeaf (hleaf rfl)
    exact ⟨.ramRandomize m, if_pos hsum, rfl, fun hW =>
      Bool.and_eq_true_iff.mpr ⟨hleaf rfl, decide_eq_true (hW rfl)⟩⟩
  | reset => cases sh <;> exact ⟨_, rfl, rfl, fun _ => rfl⟩
  | peek =>
    cases sh with
    | memoryNode | flatRam => exact ⟨_, rfl, rfl, fun _ => ha⟩
    | delayCell | loadableBit | wordRegister | flatRegister => exact ⟨_, rfl, rfl, fun _ => rfl⟩
  | tick =>
    cases sh with
    | delayCell | loadableBit => exact ⟨_, rfl, rfl, fun _ => rfl⟩
    | wordRegister | flatRegister => exact ⟨_, rfl, rfl, fun _ => hv⟩
    | memoryNode | flatRam => exact ⟨_, rfl, rfl, fun _ => Bool.and_eq_true_iff.mpr ⟨hv, ha⟩⟩

/-- Settles O3: the class of a word of the command's width has its operation, on the word's own fields. -/
theorem decoderIsTotal : Obligations.DecoderIsTotal := by
  refine fun sh m w => ⟨fun hw hcls hleaf => ?_, fun hw hleaf => ?_, fun hw => decode_of_ge hw m⟩
  · rw [decode_of_lt hw, hcls, operation_randomize_off_leaf hleaf]
  · rw [decode_of_lt hw]
    exact operation_total hleaf (addressField_lt sh w) (inField_lt sh w) m _

/-- The operation of a class depends on the fields that the class uses (rule R66). -/
theorem operation_congr {sh : Shape} {cls : CtlClass} {load load' : Bit} {a a' v v' : Nat}
    (ha : cls = .tick ∨ cls = .peek → a = a')
    (htick : cls = .tick → v = v' ∧ (sh = .delayCell ∨ load = load')) (m : Nat) :
    operation sh m cls load a v = operation sh m cls load' a' v' := by
  cases cls with
  | reset | randomize => cases sh <;> rfl
  | peek =>
    obtain rfl := ha (.inr rfl)
    cases sh <;> rfl
  | tick =>
    obtain rfl := ha (.inl rfl)
    obtain ⟨rfl, rfl | rfl⟩ := htick rfl <;> rfl

/-- Settles O5: both words have the operation of their one class, which their agreeing fields determine. -/
theorem ignoredBitsDoNotMatter : Obligations.IgnoredBitsDoNotMatter := by
  intro sh m w w' hw hw' hcls ha htick
  rw [decode_of_lt hw, decode_of_lt hw', ← hcls]
  exact operation_congr ha htick m

/-- Settles O1: each of the eleven words is decoded. -/
theorem specCommandWordsDecode : Obligations.SpecCommandWordsDecode := by
  unfold Obligations.SpecCommandWordsDecode
  decide

/-- Settles O4: the sixteen values of `ctl`, each against the four rows. -/
theorem controlClassesPartition : Obligations.ControlClassesPartition := by
  unfold Obligations.ControlClassesPartition
  decide

end Sys2Proof
end

section
/-! PROOFS. The step (rules R9, R50, R182, R192): what it does at the trace's end, with a command that decodes, and with
one that does not. -/

namespace Sys2Proof.Machine

theorem step_of_rejected {s : State} {c : Command} {rest : List Command} {e : Refusal} (ht : s.trace = c :: rest)
    (hd : s.decodeCommand c = .error e) : step s = .refused e := by
  rw [step, State.fetch, ht]
  simp only [hd]

theorem step_of_decoded {s : State} {c : Command} {rest : List Command} {i : Instr} (ht : s.trace = c :: rest)
    (hd : s.decodeCommand c = .ok i) : step s = exec i { s with trace := rest } := by
  rw [step, State.fetch, ht]
  simp only [hd]

theorem State.decodeCommand_of_none {s : State} {c : Command} (h : s.components[c.component]? = none) :
    s.decodeCommand c = .error .noSuchComponent := by
  rw [State.decodeCommand, h]

/-- A command for an existing component is decoded by it (rule R65). -/
theorem State.decodeCommand_of_ok {s : State} {c : Command} {k : Component} {i : Instr}
    (h : s.components[c.component]? = some k) (hd : decode k.shape c.component c.word = .ok i) :
    s.decodeCommand c = .ok i := by
  simp only [State.decodeCommand, h, hd]

theorem State.decodeCommand_of_error {s : State} {c : Command} {k : Component} {e : Reject}
    (h : s.components[c.component]? = some k) (hd : decode k.shape c.component c.word = .error e) :
    s.decodeCommand c = .error (Refusal.ofReject e) := by
  simp only [State.decodeCommand, h, hd]

/-- Settles O6: the command decodes to the operation. -/
theorem stepRunsTheDecodedCommand : Obligations.StepRunsTheDecodedCommand := fun _ _ _ _ _ ht hk hd =>
  step_of_decoded ht (State.decodeCommand_of_ok hk hd)

/-- Settles O7: there is no command to take. -/
theorem stepWithoutCommandKeepsTheState : Obligations.StepWithoutCommandKeepsTheState := by
  intro s ht
  rw [step, State.fetch, ht]

/-- Settles O8: the command does not decode, and the step answers that refusal. -/
theorem stepRefusesRejectedCommands : Obligations.StepRefusesRejectedCommands := fun _ _ _ ht =>
  ⟨fun hk => step_of_rejected ht (State.decodeCommand_of_none hk),
    fun _ hk hd => step_of_rejected ht (State.decodeCommand_of_error hk hd),
    fun _ hk hd => step_of_rejected ht (State.decodeCommand_of_error hk hd)⟩

end Sys2Proof.Machine
end

section
/-! PROOFS. Reading after creation and after a `reset` (rules R30, R200, R202). -/

namespace Sys2Proof.Machine

/-- A created component holds 0 everywhere (rule R30). -/
theorem Component.created_view (sh : Shape) (a : Nat) : (Component.created sh).view a = 0 := by
  cases sh with
  | delayCell | loadableBit | flatRegister | flatRam => rfl
  | wordRegister w => exact WordRegister.zero_val w
  | memoryNode w sched => exact MemoryNode.zero_view w sched a

/-- Settles O9: a location is one of a created component, or of none. -/
theorem creationReadsZeroEverywhere : Obligations.CreationReadsZeroEverywhere := by
  refine ⟨rfl, fun shapes m a => ?_⟩
  rw [State.view, State.created, List.getElem?_map]
  cases shapes[m]? with
  | none => rfl
  | some sh => exact Component.created_view sh a

/-- Settles O12: the reset commits the component's own reset, and the peek returns the word that one holds. -/
theorem peekAfterResetIsZero : Obligations.PeekAfterResetIsZero := by
  intro s m a c hc hw
  have hreset (c' : Component) := State.commit_lookup hc c' none
  refine ⟨fun h => ?_, fun h => ?_, fun h => ?_, fun h ha => ?_, fun h ha => ?_⟩
  · obtain ⟨d, rfl⟩ := Component.delayCell_of_shape h
    exact ⟨_, _, exec_dcReset hc, exec_dcPeek (hreset _), rfl⟩
  · obtain ⟨b, rfl⟩ := Component.loadableBit_of_shape h
    exact ⟨_, _, exec_lbReset hc, exec_lbPeek (hreset _), rfl⟩
  · obtain ⟨r, rfl⟩ := Component.isRegister_iff.mp h
    refine ⟨_, _, exec_wrReset hc, exec_wrPeek (hreset _), ?_⟩
    rw [State.emit_returned, State.commit_returned_none, Register.reset_val]
  · obtain ⟨r, rfl⟩ := Component.memoryNode_of_shape h
    refine ⟨_, _, exec_ramReset hc, exec_ramPeek (hreset _) ha, ?_⟩
    rw [State.emit_returned, State.commit_returned_none, Ram.reset_view hw]
  · obtain ⟨r, rfl⟩ := Component.flatRam_of_shape h
    exact ⟨_, _, exec_framReset hc, exec_framPeek (hreset _) ha, rfl⟩

end Sys2Proof.Machine
end

section
/-! PROOFS. The pins (rules R63, R64, R184): the operation they ask for, and what it does to the component. -/

namespace Sys2Proof.Machine

/-- The pin `out` is the word at the location that the address names (rules R63, R154). -/
theorem Component.out_eq_view (c : Component) (a : Nat) : c.out a = c.view (locationOf c.shape a) := by
  cases c with
  | delayCell | loadableBit | flatRam => rfl
  | register r => exact r.peek_eq_val
  | memoryNode r => exact MemoryNode.peek_eq_view r.sched r.root a

/-- `ctl = {rst, rnd, tck, load}` with `rnd = 0` has the class that the pins ask for (rules R66, R184). -/
theorem ctlClass_pins : ∀ rst edge load : Bit,
    ctlClass (8 * rst.toNat + 2 * edge.toNat + load.toNat) =
      if rst then .reset else if edge then .tick else .peek := by decide

theorem pinsCtl_load : ∀ rst edge load : Bit,
    (8 * rst.toNat + 2 * edge.toNat + load.toNat).testBit 0 = load := by decide

theorem pinsCtl_lt : ∀ rst edge load : Bit, 8 * rst.toNat + 2 * edge.toNat + load.toNat < 16 := by decide

/-- The command word with the pins' signals is a word of the operation they ask for (rule R65). -/
theorem Pins.decode_commandWord {sh : Shape} {p : Pins} (hv : p.input < 2 ^ sh.inWidth)
    (ha : p.address < 2 ^ sh.addressFieldWidth) (m : Nat) :
    decode sh m (p.commandWord sh) = .ok (p.operation m sh) := by
  rw [Pins.commandWord, Sys2Proof.decode_commandWord (pinsCtl_lt _ _ _) ha hv, ctlClass_pins, pinsCtl_load]
  obtain ⟨edge, rst, v, load, a⟩ := p
  cases rst with
  | true => cases sh <;> rfl
  | false => cases edge <;> cases sh <;> rfl

theorem State.drivePins_of_some {s : State} {m : Nat} {c : Component} (hc : s.components[m]? = some c) (p : Pins) :
    s.drivePins m p = exec (p.operation m c.shape) s := by
  rw [State.drivePins, hc]

section
variable {s : State} {m : Nat} {c : Component} {p : Pins} (hc : s.components[m]? = some c)
include hc

/-- With neither `rst` nor an edge, `out` is sampled and nothing changes (rule R64). -/
theorem exec_pins_sample (ha : p.address < 2 ^ c.shape.addressFieldWidth) (hrst : p.rst = false)
    (hedge : p.edge = false) : exec (p.operation m c.shape) s = .next (s.emit m (c.out p.address)) := by
  obtain ⟨edge, rst, v, load, a⟩ := p
  obtain ⟨rfl, rfl⟩ : rst = false ∧ edge = false := ⟨hrst, hedge⟩
  rw [Component.out_eq_view]
  cases c with
  | delayCell d => exact exec_dcPeek hc
  | loadableBit b => exact exec_lbPeek hc
  | register r => cases r <;> exact exec_wrPeek hc
  | memoryNode r => exact exec_ramPeek hc ha
  | flatRam r => exact exec_framPeek hc ha

variable (hw : c.wf = true)
include hw

/-- While `rst` is 1 the component is reset, also at an edge (rule R184). -/
theorem exec_pins_rst (hrst : p.rst = true) : exec (p.operation m c.shape) s =
    .next { s with components := s.components.set m (Component.created c.shape) } := by
  obtain ⟨edge, rst, v, load, a⟩ := p
  obtain rfl : rst = true := hrst
  obtain ⟨hdc, hlb, hwr, hram, hfram⟩ := resetLeavesTheComponentAsCreated s m c hc hw
  cases c with
  | delayCell d => exact hdc rfl
  | loadableBit b => exact hlb rfl
  | register r => cases r <;> exact hwr rfl
  | memoryNode r => exact hram rfl
  | flatRam r => exact hfram rfl

/-- An edge returns `out` and commits the component's next state (rule R64). -/
theorem exec_pins_edge (hv : p.input < 2 ^ c.shape.inWidth) (ha : p.address < 2 ^ c.shape.addressFieldWidth)
    (hrst : p.rst = false) (hedge : p.edge = true) : exec (p.operation m c.shape) s =
    .next (s.commit m (c.afterEdge p) (some (c.out p.address))) := by
  obtain ⟨edge, rst, v, load, a⟩ := p
  obtain ⟨rfl, rfl⟩ : rst = false ∧ edge = true := ⟨hrst, hedge⟩
  rw [Component.out_eq_view]
  cases c with
  | delayCell d => exact exec_dcTick hc _
  | loadableBit b => exact exec_lbTick hc _ load
  | register r =>
    rw [Register.shape_width] at hv
    cases r <;> exact exec_wrTick hc hv load
  | memoryNode r => exact exec_ramTick_view hc hw hv ha load
  | flatRam r => exact exec_framTick hc hv ha load

end

/-- Settles O59: the word's class is the one the pins ask for; then `rst`, the edge and the sample in turn. -/
theorem pinsAskForTheOperation : Obligations.PinsAskForTheOperation := by
  intro s m c p hc hw hv ha
  rw [State.drivePins_of_some hc]
  refine ⟨Pins.decode_commandWord hv ha m, exec_pins_rst hc hw, rfl, fun hrst => ?_, fun a => ?_⟩
  · cases hedge : p.edge with
    | true => exact exec_pins_edge hc hw hv ha hrst hedge
    | false =>
      rw [exec_pins_sample hc ha hrst hedge, ← State.commit_self hc]
      rfl
  · rw [Component.out_eq_view, Component.created_view]

end Sys2Proof.Machine
end

section
/-! PROOFS. The pseudo-operations on both RAMs (rule R71): each is a tick of the RAM, enabled or disabled. -/

namespace Sys2Proof.Machine

/-- An enabled tick of a tree returns the old word and leaves its input at the address (rules R42, R71). -/
theorem exec_ramTick_swaps {s : State} {m v a : Nat} {r : Ram} (hr : s.components[m]? = some (.memoryNode r))
    (hw : (Component.memoryNode r).wf = true) (hv : v < 2 ^ r.width) (ha : a < 2 ^ r.addressWidth) :
    ∃ t, exec (.ramTick m v a true) s = .next t ∧ t.returned = ⟨m, r.view a⟩ :: s.returned ∧ t.view m a = v :=
  have hexec := exec_ramTick_view hr hw hv ha true
  ⟨_, hexec, rfl, (exec_ramTick_holds hr hw hv ha hexec).word⟩

/-- An enabled tick of a FlatRam returns the old word and leaves its input at the location (rules R71, R151). -/
theorem exec_framTick_swaps {s : State} {m v a : Nat} {r : FlatRam} (hr : s.components[m]? = some (.flatRam r))
    (hw : (Component.flatRam r).wf = true) (hv : v < 2 ^ r.width) (ha : a < 2 ^ r.portWidth) :
    ∃ t, exec (.framTick m v a true) s = .next t ∧ t.returned = ⟨m, r.view (r.location a)⟩ :: s.returned ∧
      t.view m (r.location a) = v := by
  refine ⟨_, exec_framTick hr hv ha true, rfl, ?_⟩
  rw [State.commit_view hr, Component.view, FlatRam.tick_view hw, if_pos ⟨rfl, rfl⟩]

/-- Settles O60: `read` and `idle` are disabled ticks, which are peeks; `write` and `swap` are one enabled tick. -/
theorem pseudoOperations : Obligations.PseudoOperations := by
  refine ⟨fun m a p => ?_, fun s m r v a hr hw hv ha => ⟨?_, ?_, ?_⟩,
    fun s m r v a hr hw hv ha => ⟨?_, ?_, ?_⟩⟩
  · cases p <;> exact ⟨rfl, rfl, rfl, rfl⟩
  · exact exec_ramTick_disabled_eq_peek hr hw (Nat.two_pow_pos _) a
  · obtain ⟨t, hexec, hswap⟩ := exec_ramTick_swaps hr hw hv ha
    exact ⟨t, hexec, hexec, hswap⟩
  · exact exec_ramTick_disabled hr hw (Nat.two_pow_pos _) (Nat.two_pow_pos _)
  · exact exec_framTick_disabled_eq_peek hr (Nat.two_pow_pos _) a
  · obtain ⟨t, hexec, hswap⟩ := exec_framTick_swaps hr hw hv ha
    exact ⟨t, hexec, hexec, hswap⟩
  · rw [Pseudo.onFlatRam, exec_framTick_disabled hr (Nat.two_pow_pos _) (Nat.two_pow_pos _),
      FlatRam.location_of_lt (Nat.two_pow_pos _)]
    rfl

end Sys2Proof.Machine
end
